-- ==== Sys2Proof/Word.lean ====
section
/-! DEFINITION. The word types of the block (spec 00_scope.md R8, R9). Bit 0 is the least significant bit. -/

namespace Sys2Proof

/-- A `U32`, or the bit pattern of an `F32`: registers, command words, vector and symbol elements (R9, R11). -/
abbrev Word := BitVec 32

/-- An `I16`: one audio sample, two's complement (R9). -/
abbrev Sample := BitVec 16

end Sys2Proof
end

