-- ==== Sys2Proof/Config.lean ====
section
/-! DEFINITION. What an instance of the block fixes (spec 00_scope.md R6) and the free values of the
model. A constant without a body is `opaque`: no proof can learn its value, so a claim that
uses it holds for every value of its type. Types are chosen so that the constant ranges over
exactly the values the spec admits. -/

namespace Sys2Proof

/-- A pair of F32, used inside the convolution engine only (00_scope.md R12). -/
structure C32 where
  re : Word
  im : Word
deriving DecidableEq, Repr, Inhabited

/-- The two readings of "truncate/round" (46_fixed_point_quantizer.md R281). -/
inductive QRound where
  | trunc
  | nearestEven
deriving DecidableEq, Repr, Inhabited

/-- The numeric operations that can produce a NaN (00_scope.md R19, R21). -/
inductive NumOp where
  | add
  | sub
  | mul
  | div
  | sin
  | cos
deriving DecidableEq, Repr

/-- Sign and nonzero fraction (less one) of a NaN: all 2^24 - 2 patterns of 00_scope.md R11, and no other. -/
structure NanBits where
  negative : Bool
  payload  : Fin 8388607
deriving DecidableEq, Repr, Inhabited

/-- Sign and magnitude pattern of an F32 with `|val| ≤ 1`: every such pattern, and no other (property
`TRIGFIN` of 00_scope.md R21; 0x3F800000 is the pattern of 1.0). -/
structure UnitF32 where
  negative  : Bool
  magnitude : Fin 1065353217
deriving DecidableEq, Repr, Inhabited

/-- The scalar and table parameters of an instance (00_scope.md R6). The record rides in the state
because `exec` takes no other argument; no step changes it (entry 5). -/
structure Params where
  /-- `PRSG_P`, the generator's modulus (40_symbol_generator.md R141). -/
  prsgP    : Nat
  /-- `KSYN_TOL`, the window around the singular abscissa, an F32 (41_filter_kernel.md R164). -/
  ksynTol  : Word
  /-- `VLMAX`, the capacity of every buffer in elements. -/
  vlmax    : Nat
  /-- `QROUND` (46_fixed_point_quantizer.md R281). -/
  qround   : QRound
  /-- `NUM.maprom`, the eight (I, Q) pairs of the constellation (43_complex_upsampler.md R223). -/
  maprom   : Vector (Word × Word) 8
  /-- `HOST_BASE`, where the platform places the block's map (20_memory.md R82). -/
  hostBase : Word
deriving DecidableEq, Repr

namespace Config

/-! ### Constants the source or the spec gives (R6) -/

/-- `HEADER_LEN` (00_scope.md R6; 43_complex_upsampler.md R221). -/
def headerLen : Nat := 8

/-- `NSTATES`: a symbol is reduced modulo 4 (00_scope.md R6; 43_complex_upsampler.md R225). -/
def nstates : Nat := 4

/-- `SINC_CLAMP`, the F32 nearest 0.01 (00_scope.md R6). -/
def sincClamp : Word := 0x3C23D70A#32

/-- `ID_VALUE`, the ASCII bytes "PRSG" (10_state.md R41). -/
def idValue : Word := 0x50525347#32

/-- `NUM.pi` (00_scope.md R20). -/
def pi : Word := 0x40490FDB#32

/-- The default constellation table of 43_complex_upsampler.md R223. -/
def maprom : Vector (Word × Word) 8 :=
  #v[(0x3F800000#32, 0x00000000#32), (0x3F3504F3#32, 0x3F3504F3#32),
     (0x00000000#32, 0x3F800000#32), (0xBF3504F3#32, 0x3F3504F3#32),
     (0xBF800000#32, 0x00000000#32), (0xBF3504F3#32, 0xBF3504F3#32),
     (0x00000000#32, 0xBF800000#32), (0x3F3504F3#32, 0xBF3504F3#32)]

/-- The default of `QROUND` (00_scope.md R6; 46_fixed_point_quantizer.md R281). -/
def qround : QRound := .trunc

/-! ### OPEN parameters (92_eei_decisions.md, last table) -/

/-- `PRSG_P - 2`: the parameter ranges over 2 to 2^32 - 1 and nothing else is known of it (R6, D8). -/
opaque prsgPOffset : Fin 4294967294

/-- `VLMAX - 2`: the parameter ranges over 2 to 2^22 (R6, D5). -/
opaque vlmaxOffset : Fin 4194303

/-- `KSYN_TOL`: any finite F32 without sign (R6, D13). -/
opaque ksynTolPattern : Fin 2139095040

/-- `HOST_BASE / 2^30` (R6, D3). -/
opaque hostRegion : Fin 4

/-- `NUM.kbody` (41_filter_kernel.md R163): any total function of `a`, `T`, `BETA`. -/
opaque kbody : Word → Word → Word → Word

/-- `NUM.klimit` (41_filter_kernel.md R164): any total function of `T`, `BETA`. -/
opaque klimit : Word → Word → Word

/-- The values of `NUM.sin` at finite arguments other than +0 (00_scope.md R21). -/
opaque sinUnit : Word → UnitF32

/-- The values of `NUM.cos` at finite arguments other than +0 (00_scope.md R21). -/
opaque cosUnit : Word → UnitF32

/-- `NUM.fft`, element by element: element `k` of the transform of length `n` (00_scope.md R22). -/
opaque fftAt : Nat → List C32 → Nat → C32

/-- `NUM.ifft`, element by element (00_scope.md R22). -/
opaque ifftAt : Nat → List C32 → Nat → C32

/-! ### Free values -/

/-- The pattern of the NaN an operation produces, a function of the operation and its operands
(00_scope.md R18, R19; 93_implementation_defined.md U2). -/
opaque nanBits : NumOp → Word → Word → NanBits

/-- The answer to the `n`-th draw: a host read of an element without a value (10_state.md R48;
93_implementation_defined.md U1). -/
opaque draw : Nat → Word

/-- The instance's configuration record (00_scope.md R6). -/
def params : Params where
  prsgP    := prsgPOffset.val + 2
  ksynTol  := BitVec.ofNat 32 ksynTolPattern.val
  vlmax    := vlmaxOffset.val + 2
  qround   := qround
  maprom   := maprom
  hostBase := BitVec.ofNat 32 (2 ^ 30 * hostRegion.val)

end Config
end Sys2Proof
end

