-- ==== Sys2Proof/Machine/Numerics.lean ====
section
/-! DEFINITION. The numerics record `NUM` (spec 00_scope.md R11, R18 to R22): binary32 patterns, their
classes and values, IEEE addition, subtraction, multiplication and division, and the OPEN
fields with the properties the spec names.

A finite magnitude is counted in units of 2^-149, the spacing of the subnormals, so that every exact
sum is an integer and every exact product or quotient a ratio of integers. -/

namespace Sys2Proof.Machine.F32

/-! ### Patterns and classes (R11) -/

/-- The sign bit. -/
def sign (x : Word) : Bool := decide (2 ^ 31 ≤ x.toNat)

/-- Bits 30:0. -/
def magnitude (x : Word) : Nat := x.toNat % 2 ^ 31

/-- The exponent field, bits 30:23. -/
def expo (x : Word) : Nat := magnitude x / 2 ^ 23

/-- The fraction field, bits 22:0. -/
def frac (x : Word) : Nat := magnitude x % 2 ^ 23

/-- The pattern with a given sign and bits 30:0. -/
def pack (negative : Bool) (magnitude : Nat) : Word :=
  BitVec.ofNat 32 (2 ^ 31 * negative.toNat + magnitude)

/-- The magnitude pattern of infinity. -/
def infMagnitude : Nat := 0x7F800000

def isZero (x : Word) : Bool := magnitude x == 0
def isNormal (x : Word) : Bool := decide (1 ≤ expo x ∧ expo x ≤ 254)
def isFinite (x : Word) : Bool := decide (expo x ≤ 254)
def isInf (x : Word) : Bool := expo x == 255 && frac x == 0
def isNaN (x : Word) : Bool := expo x == 255 && frac x != 0

/-- `|val(x)|` in units of 2^-149 (R11). For an infinity this is 2^277, above every finite value. -/
def scaledMag (x : Word) : Nat :=
  if expo x = 0 then frac x else (2 ^ 23 + frac x) * 2 ^ (expo x - 1)

/-- `val(x)` in units of 2^-149, for a finite pattern (R11). -/
def scaled (x : Word) : Int :=
  if sign x then -(scaledMag x : Int) else (scaledMag x : Int)

/-- `abs(x)`: bit 31 cleared (41_filter_kernel.md R161). -/
def abs (x : Word) : Word := pack false (magnitude x)

/-- `neg(x)`: bit 31 inverted (41_filter_kernel.md R161). -/
def neg (x : Word) : Word := pack (!sign x) (magnitude x)

/-! ### Rounding -/

/-- `rne(n / d)`: the nearest natural, ties to the even one (R10). -/
def rneDiv (n d : Nat) : Nat :=
  let q := n / d
  let r := n % d
  if d < 2 * r then q + 1
  else if 2 * r = d then q + q % 2
  else q

/-- The magnitude pattern of `fl((n / d) · 2^-149)`: nearest, ties to even fraction, overflow to infinity
(R11). With `k` the number of binades above the lowest normal one, the pattern is `k · 2^23` plus the
value rounded to a multiple of `2^k`. -/
def flMag (n d : Nat) : Nat :=
  let k := Nat.log2 (n / d) - 23
  min (2 ^ 23 * k + rneDiv n (d * 2 ^ k)) infMagnitude

/-! ### NaN, zero, infinity, constants -/

/-- The NaN an operation produces on given operands: any NaN pattern (R19, U2). -/
def nan (op : NumOp) (a b : Word) : Word :=
  let n := Config.nanBits op a b
  pack n.negative (infMagnitude + 1 + n.payload.val)

def inf (negative : Bool) : Word := pack negative infMagnitude
def zero (negative : Bool) : Word := pack negative 0

/-- `fl(1)`. -/
def one : Word := 0x3F800000#32
/-- `fl(2)`. -/
def two : Word := 0x40000000#32
/-- `+0.0`. -/
def posZero : Word := 0x00000000#32

/-! ### The basic fields (R19, R20) -/

/-- The exact sum `n · 2^-149`, rounded; `bothNegative` gives the sign of an exact zero (R19). -/
def flSum (n : Int) (bothNegative : Bool) : Word :=
  if n = 0 then zero bothNegative else pack (decide (n < 0)) (flMag n.natAbs 1)

/-- IEEE addition, the NaN pattern supplied by the caller (R19). -/
def addWith (nanResult a b : Word) : Word :=
  if isNaN a || isNaN b then nanResult
  else if isInf a then
    if isInf b && (sign a != sign b) then nanResult else inf (sign a)
  else if isInf b then inf (sign b)
  else flSum (scaled a + scaled b) (sign a && sign b)

/-- `NUM.add` (R19). -/
def add (a b : Word) : Word := addWith (nan .add a b) a b

/-- `NUM.sub` (R19): the sum of `a` and the negation of `b`. -/
def sub (a b : Word) : Word :=
  if isNaN b then nan .sub a b else addWith (nan .sub a b) a (neg b)

/-- `NUM.mul` (R19). -/
def mul (a b : Word) : Word :=
  let s := sign a != sign b
  if isNaN a || isNaN b then nan .mul a b
  else if isInf a || isInf b then
    if isZero a || isZero b then nan .mul a b else inf s
  else pack s (flMag (scaledMag a * scaledMag b) (2 ^ 149))

/-- `NUM.div` (R19). -/
def div (a b : Word) : Word :=
  let s := sign a != sign b
  if isNaN a || isNaN b then nan .div a b
  else if isInf a then
    if isInf b then nan .div a b else inf s
  else if isInf b then zero s
  else if isZero b then
    if isZero a then nan .div a b else inf s
  else pack s (flMag (2 ^ 149 * scaledMag a) (scaledMag b))

/-- `NUM.ofNat(n)` = `fl(n)` (R20). -/
def ofNat (n : Nat) : Word := pack false (flMag (2 ^ 149 * n) 1)

/-! ### The OPEN fields with named properties (R21, R22) -/

/-- The pattern of a value bounded by 1. -/
def ofUnit (u : UnitF32) : Word := pack u.negative u.magnitude.val

/-- `NUM.sin` (R21): `SIN0`, `TRIGFIN` and `TRIGNAN` hold, nothing else is known. -/
def sin (x : Word) : Word :=
  if x = posZero then posZero
  else if isFinite x then ofUnit (Config.sinUnit x)
  else nan .sin x x

/-- `NUM.cos` (R21): `COS0`, `TRIGFIN` and `TRIGNAN` hold, nothing else is known. -/
def cos (x : Word) : Word :=
  if x = posZero then one
  else if isFinite x then ofUnit (Config.cosUnit x)
  else nan .cos x x

/-- `NUM.fft(n, x)`: `n` C32, nothing else known (R22). -/
def fft (n : Nat) (x : List C32) : List C32 := (List.range n).map (Config.fftAt n x)

/-- `NUM.ifft(n, X)`: `n` C32, nothing else known (R22). -/
def ifft (n : Nat) (x : List C32) : List C32 := (List.range n).map (Config.ifftAt n x)

/-- The normalised sinc helper (41_filter_kernel.md R161). `NUM.kbody` may use it; no command reads it
directly. -/
def sinc (x : Word) : Word :=
  if !isNaN x && decide (scaledMag (abs x) ≤ scaledMag Config.sincClamp) then one
  else
    let y := mul Config.pi x
    div (sin y) y

/-! ### Conversion to an integer (46_fixed_point_quantizer.md R281) -/

/-- `ToInt(val(x))` for a finite `x`, under either value of `QROUND`. -/
def toInt (mode : QRound) (x : Word) : Int :=
  let m : Nat :=
    match mode with
    | .trunc => scaledMag x / 2 ^ 149
    | .nearestEven => rneDiv (scaledMag x) (2 ^ 149)
  if sign x then -(m : Int) else (m : Int)

/-- `wrap16(z)`: the `I16` congruent to `z` modulo 65536 (00_scope.md R10). -/
def wrap16 (z : Int) : Sample := BitVec.ofInt 16 z

/-- `sext_32(h)` (00_scope.md R10). -/
def sext32 (h : Sample) : Word := h.signExtend 32

end Sys2Proof.Machine.F32
end

