-- ==== Sys2Proof/Syntax.lean ====
section
/-! DEFINITION. The command set (spec 30_encoding.md R115): one constructor per row of
spec/opcode_table.json. -/

namespace Sys2Proof

/-- A vector register number, 0 to 7 (30_encoding.md R113). -/
abbrev VReg := Fin 8

/-- The nine commands. Register operands stand in the order of the fields `ra`, `rb`, `rc`; the last
argument of KSYN, MAP, STRETCH and VACC is the flag of bit 0 (30_encoding.md R114, R115). -/
inductive Instr where
  /-- GEN: symbols from `SEED`, `COUNT`, `MODULUS` into `SYM` (R116). -/
  | gen
  /-- KSYN: filter kernel into `ra`; flag `N` normalises (R117). -/
  | ksyn (ra : VReg) (n : Bool)
  /-- MAP: header and `SYM` to the I branch `ra` and the Q branch `rb`; flag `O` offsets (R118). -/
  | map (ra rb : VReg) (o : Bool)
  /-- STRETCH: `rb` upsampled into `ra`; flag `H` adds the header sample count (R119). -/
  | stretch (ra rb : VReg) (h : Bool)
  /-- CONV: signal `rb` convolved with kernel `rc` into `ra` (R120). -/
  | conv (ra rb rc : VReg)
  /-- VMUL: `ra` multiplied by `rb` in place (R121). -/
  | vmul (ra rb : VReg)
  /-- MIX: I branch `rb` and Q branch `rc` onto the carrier, into `ra` (R122). -/
  | mix (ra rb rc : VReg)
  /-- VACC: `rb` added to `ra`; flag `I` copies instead (R123). -/
  | vacc (ra rb : VReg) (i : Bool)
  /-- QUANT: `rb` scaled and quantised into `AUD` (R124). -/
  | quant (rb : VReg)
deriving DecidableEq, Repr

end Sys2Proof
end

