-- ==== Sys2Proof/WellFormed.lean ====
section
/-! DEFINITION. What an instruction term must satisfy to be a command. Register numbers are bounded by
their type (spec 30_encoding.md R113); the one condition left is that of MAP (R118). -/

namespace Sys2Proof

/-- MAP's two destinations differ (30_encoding.md R118); every other term is a command. -/
def Instr.wellFormed : Instr → Bool
  | .gen => true
  | .ksyn _ _ => true
  | .map ra rb _ => ra != rb
  | .stretch _ _ _ => true
  | .conv _ _ _ => true
  | .vmul _ _ => true
  | .mix _ _ _ => true
  | .vacc _ _ _ => true
  | .quant _ => true

end Sys2Proof
end

