-- ==== Sys2Proof/Decode.lean ====
section
/-! DEFINITION. The decoder and the encoder of the command word (spec 30_encoding.md R110 to R127). -/

namespace Sys2Proof

/-- `w[hi:lo]`: the unsigned value of bits `hi` down to `lo` (00_scope.md R8). -/
def bits (w : Word) (hi lo : Nat) : Nat := w.toNat / 2 ^ lo % 2 ^ (hi + 1 - lo)

/-- The causes of an illegal word (30_encoding.md R126). All of them raise the same fault. -/
inductive Illegal where
  /-- An opcode outside 0x01 to 0x09. -/
  | unknownOpcode
  /-- A used register field above 7. -/
  | registerAbove7
  /-- An unused register field that is not 0. -/
  | unusedField
  /-- One of bits 11:1 set. -/
  | mustBeZero
  /-- Bit 0 set for a command without a flag. -/
  | noFlag
  /-- MAP with `ra = rb`. -/
  | sameDestination
deriving DecidableEq, Repr

/-- A register field that the command uses (R113). -/
def usedField (f : Nat) : Except Illegal VReg :=
  if h : f < 8 then .ok ⟨f, h⟩ else .error .registerAbove7

/-- A register field that the command does not use (R113). -/
def unusedField (f : Nat) : Except Illegal Unit :=
  if f = 0 then .ok () else .error .unusedField

/-- Bits 11:1, zero in every command (R114). -/
def zeroField (f : Nat) : Except Illegal Unit :=
  if f = 0 then .ok () else .error .mustBeZero

/-- Bit 0 of a command without a flag (R114). -/
def absentFlag (f : Nat) : Except Illegal Unit :=
  if f = 0 then .ok () else .error .noFlag

/-- MAP's two destinations differ (R118). -/
def distinct (a b : VReg) : Except Illegal Unit :=
  if a = b then .error .sameDestination else .ok ()

/-! The rows of the table (R116 to R124): each reads the fields `ra`, `rb`, `rc` and the flag bit. -/

def decodeGen (ra rb rc fl : Nat) : Except Illegal Instr := do
  unusedField ra; unusedField rb; unusedField rc; absentFlag fl
  return .gen

def decodeKsyn (ra rb rc fl : Nat) : Except Illegal Instr := do
  let a ← usedField ra; unusedField rb; unusedField rc
  return .ksyn a (fl == 1)

def decodeMap (ra rb rc fl : Nat) : Except Illegal Instr := do
  let a ← usedField ra; let b ← usedField rb; unusedField rc; distinct a b
  return .map a b (fl == 1)

def decodeStretch (ra rb rc fl : Nat) : Except Illegal Instr := do
  let a ← usedField ra; let b ← usedField rb; unusedField rc
  return .stretch a b (fl == 1)

def decodeConv (ra rb rc fl : Nat) : Except Illegal Instr := do
  let a ← usedField ra; let b ← usedField rb; let c ← usedField rc; absentFlag fl
  return .conv a b c

def decodeVmul (ra rb rc fl : Nat) : Except Illegal Instr := do
  let a ← usedField ra; let b ← usedField rb; unusedField rc; absentFlag fl
  return .vmul a b

def decodeMix (ra rb rc fl : Nat) : Except Illegal Instr := do
  let a ← usedField ra; let b ← usedField rb; let c ← usedField rc; absentFlag fl
  return .mix a b c

def decodeVacc (ra rb rc fl : Nat) : Except Illegal Instr := do
  let a ← usedField ra; let b ← usedField rb; unusedField rc
  return .vacc a b (fl == 1)

def decodeQuant (ra rb rc fl : Nat) : Except Illegal Instr := do
  unusedField ra; let b ← usedField rb; unusedField rc; absentFlag fl
  return .quant b

/-- The row of an opcode (R115), read against the fields. -/
def decodeRow (op ra rb rc fl : Nat) : Except Illegal Instr :=
  if op = 0x01 then decodeGen ra rb rc fl
  else if op = 0x02 then decodeKsyn ra rb rc fl
  else if op = 0x03 then decodeMap ra rb rc fl
  else if op = 0x04 then decodeStretch ra rb rc fl
  else if op = 0x05 then decodeConv ra rb rc fl
  else if op = 0x06 then decodeVmul ra rb rc fl
  else if op = 0x07 then decodeMix ra rb rc fl
  else if op = 0x08 then decodeVacc ra rb rc fl
  else if op = 0x09 then decodeQuant ra rb rc fl
  else .error .unknownOpcode

/-- The decoding algorithm of R125: the fields of format C (R110) read against the row of the
opcode. -/
def decode (w : Word) : Except Illegal Instr := do
  zeroField (bits w 11 1)
  decodeRow (bits w 31 24) (bits w 23 20) (bits w 19 16) (bits w 15 12) (bits w 0 0)

/-- A word of format C from its fields, bits 11:1 zero (R110). -/
def commandWord (op ra rb rc : Nat) (fl : Bool) : Word :=
  BitVec.ofNat 32 (2 ^ 24 * op + 2 ^ 20 * ra + 2 ^ 16 * rb + 2 ^ 12 * rc + fl.toNat)

/-- The command word of an instruction (R116 to R124). -/
def encode : Instr → Word
  | .gen => commandWord 0x01 0 0 0 false
  | .ksyn ra n => commandWord 0x02 ra 0 0 n
  | .map ra rb o => commandWord 0x03 ra rb 0 o
  | .stretch ra rb h => commandWord 0x04 ra rb 0 h
  | .conv ra rb rc => commandWord 0x05 ra rb rc false
  | .vmul ra rb => commandWord 0x06 ra rb 0 false
  | .mix ra rb rc => commandWord 0x07 ra rb rc false
  | .vacc ra rb i => commandWord 0x08 ra rb 0 i
  | .quant rb => commandWord 0x09 0 rb 0 false

/-- The instruction the decoder reads from a row's bits. Every command is one 32-bit word (R110), bit 0
its least significant; bits at or above `nbits` are 0. -/
def decodeTableWord (nbits w : Nat) : Option Instr :=
  (decode (BitVec.ofNat 32 (w % 2 ^ nbits))).toOption

/-- `vN` of the assembler syntax (R128). -/
def asmReg (r : VReg) : String := "v" ++ toString r.val

/-- The assembler syntax of a command (R128): a flag is a trailing operand, omitted when 0. -/
def asm : Instr → String
  | .gen => "GEN"
  | .ksyn a n => "KSYN " ++ asmReg a ++ (if n then ", N" else "")
  | .map a b o => "MAP " ++ asmReg a ++ ", " ++ asmReg b ++ (if o then ", O" else "")
  | .stretch a b h => "STRETCH " ++ asmReg a ++ ", " ++ asmReg b ++ (if h then ", H" else "")
  | .conv a b c => "CONV " ++ asmReg a ++ ", " ++ asmReg b ++ ", " ++ asmReg c
  | .vmul a b => "VMUL " ++ asmReg a ++ ", " ++ asmReg b
  | .mix a b c => "MIX " ++ asmReg a ++ ", " ++ asmReg b ++ ", " ++ asmReg c
  | .vacc a b i => "VACC " ++ asmReg a ++ ", " ++ asmReg b ++ (if i then ", I" else "")
  | .quant b => "QUANT " ++ asmReg b

end Sys2Proof
end

