-- ==== Sys2Proof/Machine/State.lean ====
section
/-! DEFINITION. The state of the block (spec 10_state.md R30), its value after reset (R58), and the
reasons a step can end without a next state. -/

namespace Sys2Proof.Machine

/-- A machine-stopping fault. There is none: every fault of the spec is the sticky fault state of
60_exceptions.md R325, which is a next state, and a port error is a response (20_memory.md R90).
Nobody raises one; that is safe, since the spec gives every such case an effect (entry 22). -/
inductive Fault where
deriving DecidableEq, Repr

/-- Why a step has no meaning. -/
inductive Refusal where
  /-- Raised by `exec`'s arm of an instruction without a meaning; no arm raises it. Safe. -/
  | notModelled (mnemonic : String)
  /-- Raised by a command that would read an element nobody has written since reset: 10_state.md R48,
  60_exceptions.md R337 (4). Safe: the hardware goes on with bits the spec gives no value. -/
  | unwrittenElement
deriving DecidableEq, Repr

/-! ### Buffers -/

/-- A vector register, the symbol buffer or the audio buffer (10_state.md R47, R50, R52): a length and
the elements that have been given a value, as (index, value) with rising indices. An index that is
not listed has no value (R48). -/
structure Buffer (α : Type) where
  len   : Nat
  cells : List (Nat × α)
deriving DecidableEq, Repr

/-- Length 0 and no element written (R58). -/
def Buffer.empty {α : Type} : Buffer α := { len := 0, cells := [] }

/-- The storage behind the element windows (20_memory.md R82). -/
structure Memory where
  /-- `v0` to `v7` (10_state.md R47). -/
  v   : Vector (Buffer Word) 8
  /-- The symbol buffer (R50). -/
  sym : Buffer Word
  /-- The audio buffer (R52). -/
  aud : Buffer Sample
deriving DecidableEq, Repr

def Memory.empty : Memory :=
  { v := Vector.replicate 8 Buffer.empty, sym := Buffer.empty, aud := Buffer.empty }

/-! ### Registers -/

/-- The twelve parameter registers (10_state.md R31 to R40). -/
structure ParamRegs where
  seed    : Word
  count   : Word
  modulus : Word
  vlen    : Word
  fs      : Word
  baud    : Word
  fc      : Word
  gain    : Word
  kt      : Word
  kbeta   : Word
  kd      : Word
  kn      : Word
deriving DecidableEq, Repr

/-- `STATUS.FAULTED` and the fault record (10_state.md R43, R45). -/
structure FaultRecord where
  faulted : Bool
  fault   : Word
  finfo0  : Word
  finfo1  : Word
  fcmd    : Word
deriving DecidableEq, Repr

/-! ### The host port -/

/-- What reaches the block from outside: a transaction (00_scope.md R14; `size` in bytes, `addr` on the
block's port, that is relative to `HOST_BASE`, entry 4) or a pulse of the reset input
(70_reset_and_hazards.md R360). -/
inductive HostEvent where
  | read (addr : Word) (size : Nat)
  | write (addr : Word) (size : Nat) (data : Word)
  | rst
deriving DecidableEq, Repr

/-- The causes of a port error (20_memory.md R90). -/
inductive PortError where
  | width
  | misaligned
  | unmapped
  | writeOnly
  | readOnly
  | indexRange
  | lengthRange
deriving DecidableEq, Repr

/-- The response to a transaction: a write acknowledged, a read's word, or an error (60_exceptions.md
R337 (1), (3)). -/
inductive Reply where
  | ack
  | data (w : Word)
  | portError (cause : PortError)
deriving DecidableEq, Repr

/-! ### The state -/

/-- The architectural state (10_state.md R30), and the model's own fields `inst`, `inbox`, `reply` and
`draws`. -/
structure State where
  /-- The parameter registers. -/
  p      : ParamRegs
  /-- `STATUS`, `FAULT`, `FINFO0`, `FINFO1`, `FCMD`. -/
  fr     : FaultRecord
  /-- `CMDCNT` (R44). -/
  cmdcnt : Word
  /-- `PRSG_S` (R51). -/
  prsgS  : Word
  /-- The vector registers, `SYM` and `AUD`. -/
  mem    : Memory
  /-- The instance's parameters (00_scope.md R6); no step changes them (entry 5). -/
  inst   : Params
  /-- What the host has issued and the block has not served, oldest first (entry 1). -/
  inbox  : List HostEvent
  /-- The response to the last transaction (entry 3). -/
  reply  : Option Reply
  /-- How many draws have been answered (entry 7). -/
  draws  : Nat
deriving DecidableEq, Repr

def ParamRegs.zero : ParamRegs where
  seed := 0#32
  count := 0#32
  modulus := 0#32
  vlen := 0#32
  fs := 0#32
  baud := 0#32
  fc := 0#32
  gain := 0#32
  kt := 0#32
  kbeta := 0#32
  kd := 0#32
  kn := 0#32

def FaultRecord.clear : FaultRecord where
  faulted := false
  fault := 0#32
  finfo0 := 0#32
  finfo1 := 0#32
  fcmd := 0#32

/-- The state after reset (R58; 70_reset_and_hazards.md R360). The host has issued nothing. -/
def State.reset : State where
  p := ParamRegs.zero
  fr := FaultRecord.clear
  cmdcnt := 0#32
  prsgS := 0#32
  mem := Memory.empty
  inst := Config.params
  inbox := []
  reply := none
  draws := 0

end Sys2Proof.Machine
end

