-- ==== Sys2Proof/Machine/Flags.lean ====
section
/-! DEFINITION. The block's one flag and the words composed with it (spec 10_state.md R43, R45, R53): there
are no condition codes and no command sets a flag as a side effect. -/

namespace Sys2Proof.Machine

/-- The eight fault codes (60_exceptions.md R321). -/
inductive FaultCode where
  | illegalCmd
  | lenMismatch
  | emptyInput
  | ktapDegenerate
  | capacity
  | param
  | quantNonfinite
  | quantRange
deriving DecidableEq, Repr

/-- The code as it stands in `FAULT[7:0]` (R321). -/
def FaultCode.code : FaultCode → BitVec 8
  | .illegalCmd => 1#8
  | .lenMismatch => 2#8
  | .emptyInput => 3#8
  | .ktapDegenerate => 4#8
  | .capacity => 5#8
  | .param => 6#8
  | .quantNonfinite => 7#8
  | .quantRange => 8#8

/-- `{aux[23:0], CODE[7:0]}` (R325). -/
def faultWord (aux : BitVec 24) (code : FaultCode) : Word := aux ++ code.code

/-- The auxiliary field `{b, k}`: `b` in `FAULT[31]`, `k` in `FAULT[30:8]` (00_scope.md R15;
41_filter_kernel.md R171). -/
def faultAux (b : Bool) (k : Nat) : BitVec 24 := BitVec.ofBool b ++ BitVec.ofNat 23 k

/-- The word `STATUS` reads as (10_state.md R43). -/
def statusWord (r : FaultRecord) : Word := if r.faulted then 1#32 else 0#32

/-- The output pin `fault_o` (60_exceptions.md R328). -/
def faultOut (s : State) : Bool := s.fr.faulted

end Sys2Proof.Machine
end

