-- ==== Sys2Proof/Machine/Ops.lean ====
section
/-! DEFINITION. The shared operations: buffers, fault entry and the ways out of it, the end of a command.
Spec 10_state.md R44, R48, R49; 60_exceptions.md R324 to R327; 70_reset_and_hazards.md R360, R361. -/

namespace Sys2Proof.Machine

/-! ### Buffers (10_state.md R48, R49; 20_memory.md R86) -/

/-- The value listed under an index. -/
def peekCells {α : Type} : List (Nat × α) → Nat → Option α
  | [], _ => none
  | (j, x) :: rest, k => if k < j then none else if k = j then some x else peekCells rest k

/-- The list with a value put under an index, in its place. -/
def pokeCells {α : Type} : List (Nat × α) → Nat → α → List (Nat × α)
  | [], k, x => [(k, x)]
  | (j, y) :: rest, k, x =>
    if k < j then (k, x) :: (j, y) :: rest
    else if k = j then (k, x) :: rest
    else (j, y) :: pokeCells rest k x

/-- A sequence listed from an index on. -/
def numberFrom {α : Type} : Nat → List α → List (Nat × α)
  | _, [] => []
  | k, x :: xs => (k, x) :: numberFrom (k + 1) xs

/-- Every index at least a bound, and each below the next. -/
def risingFrom {α : Type} : Nat → List (Nat × α) → Bool
  | _, [] => true
  | k, (j, _) :: rest => decide (k ≤ j) && risingFrom (j + 1) rest

/-- Every index below a bound. -/
def allBelow {α : Type} (cap : Nat) : List (Nat × α) → Bool
  | [] => true
  | (j, _) :: rest => decide (j < cap) && allBelow cap rest

/-- The canonical form of a buffer: length and indices within the capacity, indices strictly rising. -/
def Buffer.wf {α : Type} (cap : Nat) (b : Buffer α) : Bool :=
  decide (b.len ≤ cap) && risingFrom 0 b.cells && allBelow cap b.cells

/-- The value of element `k`, if it has one: below the length and written since reset (R48). -/
def Buffer.element? {α : Type} (b : Buffer α) (k : Nat) : Option α :=
  if k < b.len then peekCells b.cells k else none

/-- The elements below the length, each with its value if it has one. -/
def Buffer.elements {α : Type} (b : Buffer α) : List (Option α) :=
  (List.range b.len).map b.element?

/-- The values of a list, if all of them are there. -/
def allSome {α : Type} : List (Option α) → Option (List α)
  | [] => some []
  | none :: _ => none
  | some x :: rest =>
    match allSome rest with
    | none => none
    | some xs => some (x :: xs)

/-- The sequence a buffer holds, if every element below its length has a value. -/
def Buffer.contents {α : Type} (b : Buffer α) : Option (List α) := allSome b.elements

/-- `v[i] <- (L, g)`: the buffer that holds exactly a sequence; no other element has a value (R13, R48). -/
def Buffer.ofList {α : Type} (xs : List α) : Buffer α :=
  { len := xs.length, cells := numberFrom 0 xs }

/-- A host write of one element: no length changes (20_memory.md R86). -/
def Buffer.poke {α : Type} (b : Buffer α) (k : Nat) (x : α) : Buffer α :=
  { b with cells := pokeCells b.cells k x }

/-- A host write of the length: no element changes (10_state.md R49). -/
def Buffer.setLen {α : Type} (b : Buffer α) (n : Nat) : Buffer α := { b with len := n }

/-- The canonical form of the whole memory, for a capacity `VLMAX`. -/
def Memory.wf (cap : Nat) (m : Memory) : Bool :=
  m.v.toList.all (Buffer.wf cap) && m.sym.wf cap && m.aud.wf cap

def State.setV (s : State) (i : VReg) (b : Buffer Word) : State :=
  { s with mem := { s.mem with v := s.mem.v.set i.val b } }

def State.setSym (s : State) (b : Buffer Word) : State :=
  { s with mem := { s.mem with sym := b } }

def State.setAud (s : State) (b : Buffer Sample) : State :=
  { s with mem := { s.mem with aud := b } }

def State.setPrsgS (s : State) (w : Word) : State := { s with prsgS := w }

/-! ### Fault entry (60_exceptions.md R321, R325) -/

/-- `Fault(CODE, i0, i1, aux)` (00_scope.md R15). -/
structure Raise where
  code  : FaultCode
  info0 : Word
  info1 : Word
  aux   : BitVec 24
deriving DecidableEq, Repr

/-- A natural as an information word, saturated to 2^32 - 1 (R321). -/
def sat32 (n : Nat) : Word := BitVec.ofNat 32 (min n (2 ^ 32 - 1))

/-- `raise Fault(CODE, i0, i1)`: the auxiliary field is zero (00_scope.md R15). -/
def Raise.plain (code : FaultCode) (info0 info1 : Word) : Raise :=
  { code := code, info0 := info0, info1 := info1, aux := 0#24 }

/-- `Fault(CAPACITY, required, VLMAX)` (R321). -/
def Raise.capacity (required vlmax : Nat) : Raise :=
  Raise.plain .capacity (sat32 required) (sat32 vlmax)

/-- Fault entry for the command word `w` (R325): the record and `STATUS` are written and nothing else
(R324). -/
def State.takeFault (s : State) (w : Word) (r : Raise) : State :=
  { s with fr :=
      { faulted := true
        fault := faultWord r.aux r.code
        finfo0 := r.info0
        finfo1 := r.info1
        fcmd := w } }

/-- The way out of the fault state: reset by pin or by `CTRL.SRST` (60_exceptions.md R327;
70_reset_and_hazards.md R360, R361). The instance's parameters are not state (R363); what the host
has already issued, and the count of draws, are not the block's. -/
def State.applyReset (s : State) : State :=
  { State.reset with inst := s.inst, inbox := s.inbox, draws := s.draws }

/-! ### The end of a command (10_state.md R44; 00_scope.md R15) -/

/-- The last action of a command that completes: `CMDCNT <- (CMDCNT + 1) mod 2^32` (R44). -/
def State.complete (s : State) : State := { s with cmdcnt := s.cmdcnt + 1#32 }

/-- The state after a command: with its destinations written and counted, or with the fault it raised
(R324). The command word is the encoding of the instruction (entry 15). -/
def State.settle (s : State) (i : Instr) : Except Raise State → State
  | .ok t => t.complete
  | .error r => s.takeFault (encode i) r

/-- One command. `check` is the fault found before any element is read; `operands` are the elements the
command reads, absent if one of them has no value (10_state.md R48); `body` computes the
destinations, or the fault found in the data. Every fault precedes every write (00_scope.md R15). -/
def runCommand {α : Type} (i : Instr) (s : State) (check : Option Raise) (operands : Option α)
    (body : α → Except Raise State) : Host.Outcome State Fault Refusal :=
  match operands with
  | some xs =>
    .next (s.settle i
      (match check with
       | some r => .error r
       | none => body xs))
  | none =>
    match check with
    | some r => .next (s.settle i (.error r))
    | none => .refused .unwrittenElement

/-- The first fault of a list of checks, in order (60_exceptions.md R323). -/
def firstRaise : List (Bool × Raise) → Option Raise
  | [] => none
  | (cond, r) :: rest => if cond then some r else firstRaise rest

end Sys2Proof.Machine
end

