-- ==== Sys2Proof/Machine/Operands.lean ====
section
/-! DEFINITION. How a command addresses its operands (spec 20_memory.md R100): vector registers by
number, `SYM` and the parameter registers implicitly. -/

namespace Sys2Proof.Machine

/-- Vector register `i` (10_state.md R47). -/
def State.vreg (s : State) (i : VReg) : Buffer Word := s.mem.v.get i

/-- `v[i].len` as a command reads it. -/
def State.vlength (s : State) (i : VReg) : Nat := (s.vreg i).len

/-- All elements of `v[i]` below its length, absent if one has no value (R48). -/
def State.source (s : State) (i : VReg) : Option (List Word) := (s.vreg i).contents

/-- Two vector operands, read in full before any destination is written (R100). -/
def State.source2 (s : State) (i j : VReg) : Option (List Word × List Word) :=
  match s.source i with
  | none => none
  | some xs =>
    match s.source j with
    | none => none
    | some ys => some (xs, ys)

/-- All symbols of `SYM`, absent if one has no value. -/
def State.symbols (s : State) : Option (List Word) := s.mem.sym.contents

/-- `LEN_MISMATCH` of two operands (60_exceptions.md R321): the lengths in operand order. -/
def lengthCheck (s : State) (i j : VReg) : Option Raise :=
  firstRaise
    [(s.vlength i != s.vlength j,
      Raise.plain .lenMismatch (sat32 (s.vlength i)) (sat32 (s.vlength j)))]

end Sys2Proof.Machine
end

