-- ==== Sys2Proof/Machine/Accumulator.lean ====
section
/-! DEFINITION. The vector accumulator (spec 45_vector_accumulator.md): VACC. -/

namespace Sys2Proof.Machine

/-- What VACC reads (R267): with `I` the addend alone, copied; without it both operands, added. -/
def vaccResult (ra rb : VReg) (init : Bool) (s : State) : Option (List Word) :=
  if init then s.source rb
  else
    match s.source2 ra rb with
    | none => none
    | some (xs, ys) => some (List.zipWith F32.add xs ys)

/-- VACC (R267): `LEN_MISMATCH` only without `I` (R268). -/
def execVacc (ra rb : VReg) (i : Bool) (s : State) : Host.Outcome State Fault Refusal :=
  runCommand (.vacc ra rb i) s
    (if i then none else lengthCheck s ra rb)
    (vaccResult ra rb i s)
    (fun out => .ok (s.setV ra (Buffer.ofList out)))

end Sys2Proof.Machine
end

