-- ==== Sys2Proof/Machine/Kernel.lean ====
section
/-! DEFINITION. The filter kernel unit (spec 41_filter_kernel.md): KSYN. -/

namespace Sys2Proof.Machine

/-- `Grid(lo, hi, count, k)` (R162). -/
def grid (lo hi : Word) (count k : Nat) : Word :=
  F32.add lo (F32.mul (F32.ofNat k) (F32.div (F32.sub hi lo) (F32.ofNat count)))

/-- Whether the limit value is substituted at `a`: `| |a| - T/(2·BETA) | ≤ KSYN_TOL`, false for a NaN
difference (R164). -/
def inWindow (tol a t beta : Word) : Bool :=
  let c := F32.div t (F32.mul F32.two beta)
  let d := F32.sub (F32.abs a) c
  !F32.isNaN d && decide (F32.scaledMag (F32.abs d) ≤ F32.scaledMag tol)

/-- `Tap(a, T, BETA)` for a kernel body and its limit (R164): inside the window the body is not
evaluated. -/
def tap (body : Word → Word → Word → Word) (limit : Word → Word → Word) (tol a t beta : Word) : Word :=
  if inWindow tol a t beta then limit t beta else body a t beta

/-- The first value that is not a normal F32, with its index and grid point (R170, R171). -/
def firstDegenerate : Nat → List (Word × Word) → Option (Nat × Word × Word)
  | _, [] => none
  | k, (x, a) :: rest => if F32.isNormal x then firstDegenerate (k + 1) rest else some (k, x, a)

/-- The validation of a list of (value, grid point), reported with its stage (R170, R171). -/
def validate (stage : Bool) (xs : List (Word × Word)) : Except Raise (List Word) :=
  match firstDegenerate 0 xs with
  | some (k, x, a) =>
    .error { code := .ktapDegenerate, info0 := x, info1 := a, aux := faultAux stage k }
  | none => .ok (xs.map Prod.fst)

/-- The sum of a sequence, left to right from +0.0 (R168; 42_fft_convolution.md R196). -/
def tapSum (xs : List Word) : Word := xs.foldl F32.add F32.posZero

/-- The grid points of `[-D, D)` (R165). -/
def gridPoints (d : Word) (n : Nat) : List Word :=
  (List.range n).map fun k => grid (F32.neg d) d n k

/-- The taps of a kernel, validated, then, with `norm`, divided by their sum and validated again (R165,
R168, R170). -/
def synthesize (body : Word → Word → Word → Word) (limit : Word → Word → Word) (tol t beta d : Word)
    (n : Nat) (norm : Bool) : Except Raise (List Word) :=
  let points := gridPoints d n
  match validate false (points.map fun a => (tap body limit tol a t beta, a)) with
  | .error r => .error r
  | .ok taps =>
    if norm then
      validate true ((taps.map fun x => F32.div x (tapSum taps)).zip points)
    else .ok taps

/-- KSYN (R165): `CAPACITY` first, then `KTAP_DEGENERATE` over the taps. -/
def execKsyn (ra : VReg) (n : Bool) (s : State) : Host.Outcome State Fault Refusal :=
  runCommand (.ksyn ra n) s
    (firstRaise
      [(decide (s.inst.vlmax < s.p.kn.toNat), Raise.capacity s.p.kn.toNat s.inst.vlmax)])
    (some ())
    (fun _ =>
      match synthesize Config.kbody Config.klimit s.inst.ksynTol s.p.kt s.p.kbeta s.p.kd
          s.p.kn.toNat n with
      | .error r => .error r
      | .ok taps => .ok (s.setV ra (Buffer.ofList taps)))

end Sys2Proof.Machine
end

