-- ==== Sys2Proof/Machine/Convolution.lean ====
section
/-! DEFINITION. The fast convolution engine (spec 42_fft_convolution.md): CONV, VMUL. -/

namespace Sys2Proof.Machine

/-- Complex multiply, the four-multiply form (R191). -/
def cmul (x y : C32) : C32 where
  re := F32.sub (F32.mul x.re y.re) (F32.mul x.im y.im)
  im := F32.add (F32.mul x.re y.im) (F32.mul x.im y.re)

/-- `pad(x, size)`: real samples, then zeros, imaginary parts +0.0 (R192). -/
def pad (xs : List Word) (size : Nat) : List C32 :=
  (List.range size).map fun j => { re := xs.getD j F32.posZero, im := F32.posZero }

/-- `size` of CONV for operand lengths `M` and `K` (R193). -/
def convSize (m k : Nat) : Nat := m + k - 1

/-- `shift` of CONV for a kernel of `K` taps (R195). -/
def convShift (k : Nat) : Nat := k / 2

/-- Steps 1 to 6 of CONV for a transform pair (R193): pad, transform, multiply, transform back, drop
`shift` samples, divide the real parts by the tap sum. -/
def convolve (fft ifft : Nat → List C32 → List C32) (signal kernel : List Word) : List Word :=
  let size := convSize signal.length kernel.length
  let shift := convShift kernel.length
  let product := List.zipWith cmul (fft size (pad signal size)) (fft size (pad kernel size))
  let raw := ifft size product
  let ksum := tapSum kernel
  (List.range (size - shift)).map fun i => F32.div (raw.getD (i + shift) default).re ksum

/-- The checks of CONV on the operand lengths: `EMPTY_INPUT` (R194), then `CAPACITY` (R199). -/
def convCheck (m k vlmax : Nat) : Option Raise :=
  firstRaise
    [(decide (m = 0 ∨ k = 0 ∨ convSize m k < 2), Raise.plain .emptyInput (sat32 m) (sat32 k)),
     (decide (vlmax < convSize m k - convShift k),
      Raise.capacity (convSize m k - convShift k) vlmax)]

/-- CONV (R193). -/
def execConv (ra rb rc : VReg) (s : State) : Host.Outcome State Fault Refusal :=
  runCommand (.conv ra rb rc) s
    (convCheck (s.vlength rb) (s.vlength rc) s.inst.vlmax)
    (s.source2 rb rc)
    (fun (signal, kernel) => .ok
      (s.setV ra (Buffer.ofList (convolve F32.fft F32.ifft signal kernel))))

/-- VMUL (R205): elementwise product in place, `LEN_MISMATCH` for unequal lengths. -/
def execVmul (ra rb : VReg) (s : State) : Host.Outcome State Fault Refusal :=
  runCommand (.vmul ra rb) s
    (lengthCheck s ra rb)
    (s.source2 ra rb)
    (fun (xs, ys) => .ok (s.setV ra (Buffer.ofList (List.zipWith F32.mul xs ys))))

end Sys2Proof.Machine
end

