-- ==== Sys2Proof/Machine/Generator.lean ====
section
/-! DEFINITION. The symbol generator unit (spec 40_symbol_generator.md): GEN. -/

namespace Sys2Proof.Machine

/-- One squaring: the full product, then the reduction (R141, R145). -/
def squareMod (p s : Nat) : Nat := s * s % p

/-- `count` states from a first one on (R141). -/
def statesFrom (p : Nat) : Nat → Nat → List Nat
  | 0, _ => []
  | n + 1, s => s :: statesFrom p n (squareMod p s)

/-- State `i` of the sequence that starts at `s` (R141). -/
def stateAt (p : Nat) : Nat → Nat → Nat
  | 0, s => s
  | i + 1, s => stateAt p i (squareMod p s)

/-- The symbols of GEN: each state reduced modulo `m` (R142). -/
def genSymbols (p seed count m : Nat) : List Word :=
  (statesFrom p count (squareMod p seed)).map fun s => BitVec.ofNat 32 (s % m)

/-- The last state formed: `s[count-1]`, and `s[0]` for a count of 0 (R142, R146). -/
def genLast (p seed count : Nat) : Word := BitVec.ofNat 32 (stateAt p (count - 1) (squareMod p seed))

/-- GEN (R142): `PARAM` for `MODULUS` = 0 (R143), then `CAPACITY` (R144). -/
def execGen (s : State) : Host.Outcome State Fault Refusal :=
  runCommand .gen s
    (firstRaise
      [(s.p.modulus == 0#32, Raise.plain .param 1#32 0#32),
       (decide (s.inst.vlmax < s.p.count.toNat), Raise.capacity s.p.count.toNat s.inst.vlmax)])
    (some ())
    (fun _ => .ok
      ((s.setSym (Buffer.ofList
          (genSymbols s.inst.prsgP s.p.seed.toNat s.p.count.toNat s.p.modulus.toNat))).setPrsgS
        (genLast s.inst.prsgP s.p.seed.toNat s.p.count.toNat)))

end Sys2Proof.Machine
end

