-- ==== Sys2Proof/Machine/Mixer.lean ====
section
/-! DEFINITION. The quadrature mixer (spec 44_quadrature_mixer.md): MIX. -/

namespace Sys2Proof.Machine

/-- `Theta(n)` (R251), evaluated left to right. -/
def theta (fc fs : Word) (n : Nat) : Word :=
  F32.div (F32.mul (F32.mul (F32.mul F32.two Config.pi) fc) (F32.ofNat n)) (F32.ofNat fs.toNat)

/-- One output sample: `I·sin θ + Q·cos θ` (R252). -/
def mixSample (fc fs : Word) (n : Nat) (i q : Word) : Word :=
  F32.add (F32.mul i (F32.sin (theta fc fs n))) (F32.mul q (F32.cos (theta fc fs n)))

/-- The channel waveform of two branches (R252). -/
def mixSamples (fc fs : Word) (is qs : List Word) : List Word :=
  (is.zip qs).zipIdx.map fun (iq, n) => mixSample fc fs n iq.1 iq.2

/-- MIX (R252): `LEN_MISMATCH` for branches of unequal length (R253). -/
def execMix (ra rb rc : VReg) (s : State) : Host.Outcome State Fault Refusal :=
  runCommand (.mix ra rb rc) s
    (lengthCheck s rb rc)
    (s.source2 rb rc)
    (fun (is, qs) => .ok (s.setV ra (Buffer.ofList (mixSamples s.p.fc s.p.fs is qs))))

end Sys2Proof.Machine
end

