-- ==== Sys2Proof/Machine/Quantizer.lean ====
section
/-! DEFINITION. The fixed-point quantizer (spec 46_fixed_point_quantizer.md): QUANT. -/

namespace Sys2Proof.Machine

/-- One sample at index `k` with product `y` (R282): `QUANT_NONFINITE` (R283), then `QUANT_RANGE` (R285), then
the wrap to 16 bits (R284). -/
def quantSample (mode : QRound) (k : Nat) (y : Word) : Except Raise Sample :=
  if !F32.isFinite y then .error (Raise.plain .quantNonfinite (sat32 k) y)
  else
    let z := F32.toInt mode y
    if z < -2 ^ 31 ∨ 2 ^ 31 - 1 < z then .error (Raise.plain .quantRange (sat32 k) y)
    else .ok (F32.wrap16 z)

/-- The samples in index order from index `k` on (R282). The first fault ends the command; an element
without a value that is reached before it leaves no result (10_state.md R48; entry 16). -/
def quantSamples (mode : QRound) (gain : Word) : Nat → List (Option Word) →
    Option (Except Raise (List Sample))
  | _, [] => some (.ok [])
  | _, none :: _ => none
  | k, some e :: rest =>
    match quantSample mode k (F32.mul gain e) with
    | .error r => some (.error r)
    | .ok a =>
      match quantSamples mode gain (k + 1) rest with
      | none => none
      | some (.error r) => some (.error r)
      | some (.ok as) => some (.ok (a :: as))

/-- QUANT (R282). -/
def execQuant (rb : VReg) (s : State) : Host.Outcome State Fault Refusal :=
  runCommand (.quant rb) s
    none
    (quantSamples s.inst.qround s.p.gain 0 (s.vreg rb).elements)
    (fun result =>
      match result with
      | .error r => .error r
      | .ok samples => .ok (s.setAud (Buffer.ofList samples)))

end Sys2Proof.Machine
end

