-- ==== Sys2Proof/Machine/Upsampler.lean ====
section
/-! DEFINITION. The complex upsampler (spec 43_complex_upsampler.md): MAP, STRETCH. -/

namespace Sys2Proof.Machine

/-- The phase angle of the symbol at index `k`, in units of π/4 (R222): `2·(symbol mod 4)`, plus 1 at even
indices with the offset flag (R224). -/
def phaseIndex (o : Bool) (k : Nat) (symbol : Word) : Nat :=
  2 * (symbol.toNat % Config.nstates) + (if o && k % 2 == 0 then 1 else 0)

/-- The (I, Q) pair of a symbol, from the constellation table (R222, R223). -/
def mapPoint (rom : Vector (Word × Word) 8) (o : Bool) (k : Nat) (symbol : Word) : Word × Word :=
  rom.toList.getD (phaseIndex o k symbol) (0#32, 0#32)

/-- The header and the symbols (R221), each mapped (R222). -/
def mapPoints (rom : Vector (Word × Word) 8) (o : Bool) (symbols : List Word) : List (Word × Word) :=
  (List.replicate Config.headerLen 0#32 ++ symbols).zipIdx.map fun (x, k) => mapPoint rom o k x

/-- MAP (R222): both branches written, `CAPACITY` for `8 + SYMLEN > VLMAX` (R227). -/
def execMap (ra rb : VReg) (o : Bool) (s : State) : Host.Outcome State Fault Refusal :=
  runCommand (.map ra rb o) s
    (firstRaise
      [(decide (s.inst.vlmax < Config.headerLen + s.mem.sym.len),
        Raise.capacity (Config.headerLen + s.mem.sym.len) s.inst.vlmax)])
    s.symbols
    (fun symbols =>
      let points := mapPoints s.inst.maprom o symbols
      .ok ((s.setV ra (Buffer.ofList (points.map Prod.fst))).setV rb
        (Buffer.ofList (points.map Prod.snd))))

/-- `header_sample_count` (R231): `(HEADER_LEN · FS) div BAUD` in the naturals. -/
def headerSamples (fs baud : Nat) : Nat := Config.headerLen * fs / baud

/-- The desired length of STRETCH (R230). -/
def stretchDesired (h : Bool) (s : State) : Nat :=
  s.p.vlen.toNat + (if h then headerSamples s.p.fs.toNat s.p.baud.toNat else 0)

/-- The source index of output sample `i` (R230): the remainder repeats the last element. -/
def stretchIndex (n desired i : Nat) : Nat :=
  let per := desired / n
  if i < per * n then i / per else n - 1

/-- The checks of STRETCH, in order: `PARAM` (R231), `EMPTY_INPUT` (R232), `CAPACITY` (R233). -/
def stretchCheck (h : Bool) (rb : VReg) (s : State) : Option Raise :=
  firstRaise
    [(h && s.p.baud == 0#32, Raise.plain .param 2#32 0#32),
     (s.vlength rb == 0, Raise.plain .emptyInput 0#32 (sat32 (stretchDesired h s))),
     (decide (s.inst.vlmax < stretchDesired h s),
      Raise.capacity (stretchDesired h s) s.inst.vlmax)]

/-- The elements STRETCH copies, in output order; nothing is read where the output cannot fit, since
`CAPACITY` comes first (R230; entry 16). -/
def stretchSource (h : Bool) (rb : VReg) (s : State) : Option (List Word) :=
  let n := s.vlength rb
  let desired := stretchDesired h s
  if desired ≤ s.inst.vlmax then
    allSome ((List.range desired).map fun i => (s.vreg rb).element? (stretchIndex n desired i))
  else some []

/-- STRETCH (R230): sample-and-hold, bit for bit. -/
def execStretch (ra rb : VReg) (h : Bool) (s : State) : Host.Outcome State Fault Refusal :=
  runCommand (.stretch ra rb h) s
    (stretchCheck h rb s)
    (stretchSource h rb s)
    (fun out => .ok (s.setV ra (Buffer.ofList out)))

end Sys2Proof.Machine
end

