-- ==== Sys2Proof/Machine/Dispatch.lean ====
section
/-! DEFINITION. The meaning of each command (spec 30_encoding.md R115), one arm per constructor. -/

namespace Sys2Proof.Machine

def exec (i : Instr) (s : State) : Host.Outcome State Fault Refusal :=
  match i with
  | .gen => Sys2Proof.Machine.execGen s
  | .ksyn ra n => Sys2Proof.Machine.execKsyn ra n s
  | .map ra rb o => Sys2Proof.Machine.execMap ra rb o s
  | .stretch ra rb h => Sys2Proof.Machine.execStretch ra rb h s
  | .conv ra rb rc => Sys2Proof.Machine.execConv ra rb rc s
  | .vmul ra rb => Sys2Proof.Machine.execVmul ra rb s
  | .mix ra rb rc => Sys2Proof.Machine.execMix ra rb rc s
  | .vacc ra rb h => Sys2Proof.Machine.execVacc ra rb h s
  | .quant rb => Sys2Proof.Machine.execQuant rb s

end Sys2Proof.Machine
end

