-- ==== Sys2Proof/Machine/Port.lean ====
section
/-! DEFINITION. The host port (spec 20_memory.md): the address map, reads and writes, port errors, and the
dispatch of a command word (30_encoding.md R112). -/

namespace Sys2Proof.Machine

/-! ### The address map (R82) -/

/-- The scalar registers (10_state.md R32 to R52). -/
inductive ScalarReg where
  | id
  | cmd
  | status
  | fault
  | finfo0
  | finfo1
  | fcmd
  | cmdcnt
  | ctrl
  | seed
  | count
  | modulus
  | vlen
  | fs
  | baud
  | fc
  | gain
  | kt
  | kbeta
  | kd
  | kn
  | prsgS
  | vl (i : VReg)
  | symlen
  | audlen
deriving DecidableEq, Repr

/-- The byte offset of a scalar register (R82). -/
def ScalarReg.offset : ScalarReg → Nat
  | .id => 0x000
  | .cmd => 0x004
  | .status => 0x008
  | .fault => 0x00C
  | .finfo0 => 0x010
  | .finfo1 => 0x014
  | .fcmd => 0x018
  | .cmdcnt => 0x01C
  | .ctrl => 0x020
  | .seed => 0x040
  | .count => 0x044
  | .modulus => 0x048
  | .vlen => 0x04C
  | .fs => 0x050
  | .baud => 0x054
  | .fc => 0x058
  | .gain => 0x05C
  | .kt => 0x060
  | .kbeta => 0x064
  | .kd => 0x068
  | .kn => 0x06C
  | .prsgS => 0x070
  | .vl i => 0x080 + 4 * i.val
  | .symlen => 0x0A0
  | .audlen => 0x0A4

/-- Every scalar register. -/
def scalarRegs : List ScalarReg :=
  [.id, .cmd, .status, .fault, .finfo0, .finfo1, .fcmd, .cmdcnt, .ctrl, .seed, .count, .modulus,
   .vlen, .fs, .baud, .fc, .gain, .kt, .kbeta, .kd, .kn, .prsgS] ++
  (List.finRange 8).map .vl ++ [.symlen, .audlen]

/-- What an address names (R82): a scalar register, or an element of a window. -/
inductive Location where
  | reg (r : ScalarReg)
  | vwindow (i : VReg) (k : Nat)
  | symWindow (k : Nat)
  | audWindow (k : Nat)
deriving DecidableEq, Repr

/-- The bases of the windows and the size of each (R82). -/
def vBase : Nat := 0x10000000
def symBase : Nat := 0x20000000
def audBase : Nat := 0x30000000
def windowSize : Nat := 0x01000000

/-- The element of a window an offset names (R83). -/
def elementIndex (off : Nat) : Nat := off % windowSize / 4

/-- The location at an aligned offset, absent where the map has none (R82, R83). The scalar registers stand
below 0x100; every window is one region of `windowSize` bytes, and `page` is the number of the region:
0x10 to 0x17 for `v0` to `v7`, 0x20 for `SYM`, 0x30 for `AUD`. -/
def locate (off : Nat) : Option Location :=
  let page := off / windowSize
  if off < 0x100 then (scalarRegs.find? fun r => r.offset == off).map .reg
  else if 0x10 ≤ page ∧ page < 0x18 then some (.vwindow (Fin.ofNat 8 page) (elementIndex off))
  else if page = 0x20 then some (.symWindow (elementIndex off))
  else if page = 0x30 then some (.audWindow (elementIndex off))
  else none

/-- The checks common to every transaction (R81, R83, R90): width, alignment, map, element index. -/
def access (s : State) (addr : Word) (size : Nat) : Except PortError Location :=
  if size ≠ 4 then .error .width
  else if addr.toNat % 4 ≠ 0 then .error .misaligned
  else
    match locate addr.toNat with
    | none => .error .unmapped
    | some (.vwindow i k) =>
      if k < s.inst.vlmax then .ok (.vwindow i k) else .error .indexRange
    | some (.symWindow k) => if k < s.inst.vlmax then .ok (.symWindow k) else .error .indexRange
    | some (.audWindow k) => if k < s.inst.vlmax then .ok (.audWindow k) else .error .indexRange
    | some (.reg r) => .ok (.reg r)

/-- A host byte address on the block's own port (R82): the platform places the map at `HOST_BASE`
(entry 4). -/
def portAddress (inst : Params) (hostAddr : Word) : Word := hostAddr - inst.hostBase

/-- `MemRead(addr, 4)` of a host address (00_scope.md R14). -/
def memRead (inst : Params) (hostAddr : Word) : HostEvent := .read (portAddress inst hostAddr) 4

/-- `MemWrite(addr, 4, w)` of a host address (00_scope.md R14). -/
def memWrite (inst : Params) (hostAddr w : Word) : HostEvent :=
  .write (portAddress inst hostAddr) 4 w

/-- The completion of a transaction: the response is put on the port. -/
def State.respond (s : State) (r : Reply) : State := { s with reply := some r }

/-! ### Reads (R84 to R88) -/

/-- The value of a scalar register, absent for a write-only one (10_state.md R41 to R52). -/
def readScalar (s : State) : ScalarReg → Option Word
  | .id => some Config.idValue
  | .cmd => none
  | .status => some (statusWord s.fr)
  | .fault => some s.fr.fault
  | .finfo0 => some s.fr.finfo0
  | .finfo1 => some s.fr.finfo1
  | .fcmd => some s.fr.fcmd
  | .cmdcnt => some s.cmdcnt
  | .ctrl => none
  | .seed => some s.p.seed
  | .count => some s.p.count
  | .modulus => some s.p.modulus
  | .vlen => some s.p.vlen
  | .fs => some s.p.fs
  | .baud => some s.p.baud
  | .fc => some s.p.fc
  | .gain => some s.p.gain
  | .kt => some s.p.kt
  | .kbeta => some s.p.kbeta
  | .kd => some s.p.kd
  | .kn => some s.p.kn
  | .prsgS => some s.prsgS
  | .vl i => some (BitVec.ofNat 32 (s.vlength i))
  | .symlen => some (BitVec.ofNat 32 s.mem.sym.len)
  | .audlen => some (BitVec.ofNat 32 s.mem.aud.len)

/-- The word of a window element, if the element has a value (R86 to R88; 10_state.md R48). -/
def readElement (s : State) : Location → Option Word
  | .reg _ => none
  | .vwindow i k => (s.vreg i).element? k
  | .symWindow k => s.mem.sym.element? k
  | .audWindow k => (s.mem.aud.element? k).map F32.sext32

/-- A draw: any word, chosen anew each time (00_scope.md R25; 93_implementation_defined.md U1). -/
def State.answerDraw (s : State) : State :=
  { s with draws := s.draws + 1, reply := some (.data (Config.draw s.draws)) }

/-- A read transaction (R84, R86 to R88, R90). -/
def portRead (s : State) (addr : Word) (size : Nat) : State :=
  match access s addr size with
  | .error e => s.respond (.portError e)
  | .ok (.reg r) =>
    match readScalar s r with
    | none => s.respond (.portError .writeOnly)
    | some w => s.respond (.data w)
  | .ok loc =>
    match readElement s loc with
    | none => s.answerDraw
    | some w => s.respond (.data w)

/-! ### Writes (R85 to R88) -/

/-- What a write transaction leaves to do: nothing, or a command to run. -/
inductive PortAction where
  | done (s : State)
  | run (i : Instr)
deriving DecidableEq, Repr

/-- Dispatch of a command word (30_encoding.md R112): ignored under `FAULTED`, `ILLEGAL_CMD` for a word that
decodes to no command, else the command. -/
def issue (s : State) (w : Word) : PortAction :=
  if s.fr.faulted then .done (s.respond .ack)
  else
    match decode w with
    | .error _ => .done ((s.takeFault w (Raise.plain .illegalCmd w 0#32)).respond .ack)
    | .ok i => .run i

/-- A write of `CTRL` (10_state.md R46): bit 0 resets, the other bits are ignored. -/
def writeCtrl (s : State) (w : Word) : State :=
  if w.getLsbD 0 then s.applyReset.respond .ack else s.respond .ack

/-- A host write of a length register (10_state.md R49): above `VLMAX` a port error. -/
def writeLength (s : State) (n : Nat) (set : Nat → State) : State :=
  if n ≤ s.inst.vlmax then (set n).respond .ack else s.respond (.portError .lengthRange)

def State.setParams (s : State) (p : ParamRegs) : State := { s with p := p }

/-- A write of a scalar register (R85). -/
def writeScalar (s : State) (w : Word) : ScalarReg → PortAction
  | .cmd => issue s w
  | .ctrl => .done (writeCtrl s w)
  | .seed => .done ((s.setParams { s.p with seed := w }).respond .ack)
  | .count => .done ((s.setParams { s.p with count := w }).respond .ack)
  | .modulus => .done ((s.setParams { s.p with modulus := w }).respond .ack)
  | .vlen => .done ((s.setParams { s.p with vlen := w }).respond .ack)
  | .fs => .done ((s.setParams { s.p with fs := w }).respond .ack)
  | .baud => .done ((s.setParams { s.p with baud := w }).respond .ack)
  | .fc => .done ((s.setParams { s.p with fc := w }).respond .ack)
  | .gain => .done ((s.setParams { s.p with gain := w }).respond .ack)
  | .kt => .done ((s.setParams { s.p with kt := w }).respond .ack)
  | .kbeta => .done ((s.setParams { s.p with kbeta := w }).respond .ack)
  | .kd => .done ((s.setParams { s.p with kd := w }).respond .ack)
  | .kn => .done ((s.setParams { s.p with kn := w }).respond .ack)
  | .vl i => .done (writeLength s w.toNat fun n => s.setV i ((s.vreg i).setLen n))
  | .symlen => .done (writeLength s w.toNat fun n => s.setSym (s.mem.sym.setLen n))
  | .id => .done (s.respond (.portError .readOnly))
  | .status => .done (s.respond (.portError .readOnly))
  | .fault => .done (s.respond (.portError .readOnly))
  | .finfo0 => .done (s.respond (.portError .readOnly))
  | .finfo1 => .done (s.respond (.portError .readOnly))
  | .fcmd => .done (s.respond (.portError .readOnly))
  | .cmdcnt => .done (s.respond (.portError .readOnly))
  | .prsgS => .done (s.respond (.portError .readOnly))
  | .audlen => .done (s.respond (.portError .readOnly))

/-- A write transaction (R85 to R88, R90). -/
def portWrite (s : State) (addr : Word) (size : Nat) (w : Word) : PortAction :=
  match access s addr size with
  | .error e => .done (s.respond (.portError e))
  | .ok (.reg r) => writeScalar s w r
  | .ok (.vwindow i k) => .done ((s.setV i ((s.vreg i).poke k w)).respond .ack)
  | .ok (.symWindow k) => .done ((s.setSym (s.mem.sym.poke k w)).respond .ack)
  | .ok (.audWindow _) => .done (s.respond (.portError .readOnly))

/-- One event from outside (R93, R95; 70_reset_and_hazards.md R360, R362). -/
def serve (s : State) : HostEvent → PortAction
  | .read addr size => .done (portRead s addr size)
  | .write addr size w => portWrite s addr size w
  | .rst => .done s.applyReset

/-- The acknowledgement of the `CMD` write once its command has ended, by completion or by fault entry
(R93; 60_exceptions.md R325). -/
def acknowledge : Host.Outcome State Fault Refusal → Host.Outcome State Fault Refusal
  | .next t => .next (t.respond .ack)
  | .fault f => .fault f
  | .refused r => .refused r

/-- The host's write of `CMD` with the word `w` (30_encoding.md R111). -/
def commandWrite (w : Word) : HostEvent := .write (BitVec.ofNat 32 (ScalarReg.offset .cmd)) 4 w

/-- The oldest event taken from the inbox. -/
def State.withInbox (s : State) (rest : List HostEvent) : State := { s with inbox := rest }

end Sys2Proof.Machine
end

