-- ==== Sys2Proof/Machine/Step.lean ====
section
/-! DEFINITION. One step: the block serves the oldest event the host has issued (spec 20_memory.md R93, R95);
with none it is idle (00_scope.md R7). -/

namespace Sys2Proof.Machine

def step (s : State) : Host.Outcome State Fault Refusal :=
  match s.inbox with
  | [] => .next s
  | e :: rest =>
    match serve (s.withInbox rest) e with
    | .done t => .next t
    | .run i => acknowledge (exec i (s.withInbox rest))

/-- The state in which the next event to serve is the host's write of an instruction's word to `CMD`
(30_encoding.md R111; entry 1). -/
def State.withFetchWord (s : State) (nbits w : Nat) : State :=
  s.withInbox (commandWrite (BitVec.ofNat 32 (w % 2 ^ nbits)) :: s.inbox)

end Sys2Proof.Machine
end

