-- ==== Sys2Proof/Machine/Macros.lean ====
section
/-! DEFINITION. Host directives (spec 30_encoding.md R129) and pseudo-instructions (47_pipeline_macros.md R300 to
R306) as the transactions they stand for. The block does not know them. -/

namespace Sys2Proof.Machine

/-- `WR REG, value`. -/
def wr (r : ScalarReg) (value : Word) : HostEvent := .write (BitVec.ofNat 32 r.offset) 4 value

/-- `RD REG`. -/
def rd (r : ScalarReg) : HostEvent := .read (BitVec.ofNat 32 r.offset) 4

/-- A command line of the assembler: its word written to `CMD` (R128). -/
def command (i : Instr) : HostEvent := commandWrite (encode i)

/-- The address of element `k` of `v[i]` (20_memory.md R82). -/
def vAddress (i : VReg) (k : Nat) : Word := BitVec.ofNat 32 (vBase + windowSize * i.val + 4 * k)

/-- The address of element `k` of `SYM`. -/
def symAddress (k : Nat) : Word := BitVec.ofNat 32 (symBase + 4 * k)

/-- The address of element `k` of `AUD`. -/
def audAddress (k : Nat) : Word := BitVec.ofNat 32 (audBase + 4 * k)

/-- `LDV vA, [...]`: the elements, then the length. -/
def ldv (i : VReg) (xs : List Word) : List HostEvent :=
  (xs.zipIdx.map fun (x, k) => .write (vAddress i k) 4 x) ++
    [wr (.vl i) (BitVec.ofNat 32 xs.length)]

/-- `LDS [...]`. -/
def lds (xs : List Word) : List HostEvent :=
  (xs.zipIdx.map fun (x, k) => .write (symAddress k) 4 x) ++
    [wr .symlen (BitVec.ofNat 32 xs.length)]

/-- `RDV vA` for a register of `n` elements. -/
def rdv (i : VReg) (n : Nat) : List HostEvent :=
  rd (.vl i) :: (List.range n).map fun k => .read (vAddress i k) 4

/-- `RDA` for an audio buffer of `n` samples. -/
def rda (n : Nat) : List HostEvent :=
  rd .audlen :: (List.range n).map fun k => .read (audAddress k) 4

/-- `MODULATE fc, target` with the optional `O` (47_pipeline_macros.md R302). -/
def modulate (fc target : Word) (o : Bool) : List HostEvent :=
  [wr .fc fc, wr .vlen target, command (.map 0 1 o), command (.stretch 2 0 true),
   command (.stretch 3 1 true), command (.conv 0 2 7), command (.conv 1 3 7), command (.mix 2 0 1)]

/-- One channel of COMPOSE: symbol count, seed, carrier frequency (R304). -/
structure ChannelSpec where
  count : Word
  seed  : Word
  fc    : Word
deriving DecidableEq, Repr

/-- The lines of one channel of COMPOSE; `first` starts the sum (R304). -/
def composeChannel (first : Bool) (target : Word) (o : Bool) (c : ChannelSpec) : List HostEvent :=
  [wr .seed c.seed, wr .count c.count, wr .modulus 4#32, command .gen] ++
    modulate c.fc target o ++ [command (.vacc 6 2 first)]

/-- `COMPOSE [...], target`: a first channel and the others in order (R304). -/
def compose (first : ChannelSpec) (others : List ChannelSpec) (target : Word) (o : Bool) :
    List HostEvent :=
  composeChannel true target o first ++ others.flatMap (composeChannel false target o) ++
    [command (.quant 6)]

/-- Kernel set-up (R306). -/
def kernelSetup (t beta d n : Word) (norm : Bool) : List HostEvent :=
  [wr .kt t, wr .kbeta beta, wr .kd d, wr .kn n, command (.ksyn 7 norm)]

end Sys2Proof.Machine
end

