-- ==== Sys2Proof/Safety.lean ====
section
/-! DEFINITION. What claims about a run are stated in (spec 60_exceptions.md R326, R337): a fault-free state, the
outcomes of a host step, and the invariant that every step keeps. -/

namespace Sys2Proof

open Machine

/-- No command has faulted since reset: the premise or conclusion of every claim about a run (R326). -/
def FaultFree (s : State) : Prop := s.fr.faulted = false

/-! ### The outcomes of a host step (R337), never merged

Each but the last is a relation between the state before the oldest transaction is served and the state after
it. `Sys2Proof.outcome_cases` in Laws/Outcome.lean says that every transaction has one of them, and the lemmas
after it that no two hold together. -/

/-- R337 (1): the transaction was answered and took effect. Of a `CMD` write: the command ran to its end,
without a fault, and was counted. -/
structure Completed (s t : State) : Prop where
  served   : s.inbox ≠ [] ∧ step s = .next t
  answered : t.reply = some .ack ∨ ∃ w, t.reply = some (.data w)
  ran      : ∀ w rest, s.inbox = commandWrite w :: rest →
    s.fr.faulted = false ∧ t.fr = s.fr ∧ t.cmdcnt = s.cmdcnt + 1#32

/-- R337 (2): a `CMD` write ended in fault entry. The state is as before plus the record. -/
def Faulted (s t : State) : Prop :=
  s.fr.faulted = false ∧ step s = .next t ∧
    ∃ w rest, s.inbox = commandWrite w :: rest ∧ ∃ record : FaultRecord, record.faulted = true ∧
      t = { s with inbox := rest, reply := some .ack, fr := record }

/-- R337 (3): the transaction was refused by the port and nothing changed. -/
def PortRefused (s t : State) : Prop :=
  step s = .next t ∧ ∃ e rest c, s.inbox = e :: rest ∧
    t = { s with inbox := rest, reply := some (.portError c) }

/-- R337 (4): the model gives the step no meaning, because a command would read an element without a
value. -/
def RefusedByModel (s : State) : Prop := step s = .refused .unwrittenElement

/-- A `CMD` write under `FAULTED`, acknowledged and ignored (R326). R337 does not name the case. No command
ran, the record did not change and there is no port error, so it is kept apart from (1), (2) and (3)
(DEDUCED, entry 27). -/
def CommandIgnored (s t : State) : Prop :=
  s.fr.faulted = true ∧ step s = .next t ∧
    ∃ w rest, s.inbox = commandWrite w :: rest ∧ t = { s with inbox := rest, reply := some .ack }

/-! ### The invariant -/

/-- The parameters are in the ranges of 00_scope.md R6. -/
def Params.valid (c : Params) : Bool :=
  decide (2 ≤ c.prsgP ∧ c.prsgP < 2 ^ 32) &&
  (F32.isFinite c.ksynTol && (!F32.sign c.ksynTol || F32.isZero c.ksynTol)) &&
  decide (2 ≤ c.vlmax ∧ c.vlmax ≤ 2 ^ 22) &&
  decide (c.hostBase.toNat % 2 ^ 30 = 0)

/-- The fault record is what R45 and R321 allow: all zero without a fault; with one, a code from 1 to 8 in
`FAULT[7:0]`, and an auxiliary field that is zero unless the code is 4. -/
def FaultRecord.valid (r : FaultRecord) : Bool :=
  if r.faulted then
    decide (1 ≤ r.fault.toNat % 2 ^ 8 ∧ r.fault.toNat % 2 ^ 8 ≤ 8) &&
      (decide (r.fault.toNat / 2 ^ 8 = 0) || decide (r.fault.toNat % 2 ^ 8 = 4))
  else decide (r = FaultRecord.clear)

/-- Every element of `AUD` below `AUDLEN` has a value: only QUANT writes the buffer (10_state.md R52). -/
def Memory.audioComplete (m : Memory) : Bool := m.aud.contents.isSome

/-- The invariant of the block. -/
structure BlockInvariant (s : State) : Prop where
  /-- The parameters are in range (00_scope.md R6). -/
  params  : Params.valid s.inst = true
  /-- Every buffer is in canonical form, within `VLMAX` (10_state.md R47 to R52). -/
  memory  : s.mem.wf s.inst.vlmax = true
  /-- The fault record is a legal one (10_state.md R45). -/
  record  : FaultRecord.valid s.fr = true
  /-- `PRSG_S` is a generator state, below `PRSG_P` (40_symbol_generator.md R145). -/
  prsg    : s.prsgS.toNat < s.inst.prsgP
  /-- Every sample of `AUD` has a value (20_memory.md R88). -/
  audio   : Memory.audioComplete s.mem = true

end Sys2Proof
end

