-- ==== Sys2Proof/Certificates/Slice0/Obligations.lean ====
section
/-! DEFINITION. The statements for the provers. The results are written out from the rules of the spec, in the
words of `Sys2Proof.Claims` below, not by the model's own functions for them, wherever the rule
gives a formula. -/

namespace Sys2Proof.Claims

open Sys2Proof.Machine

/-- State `i` of the generator (40_symbol_generator.md R141). -/
def prsgState (p seed : Nat) : Nat → Nat
  | 0 => seed * seed % p
  | i + 1 => prsgState p seed i * prsgState p seed i % p

/-- A natural in 32 bits, saturated (60_exceptions.md R321). -/
def saturate (n : Nat) : Word := BitVec.ofNat 32 (min n 4294967295)

/-- The state in which a command completes that wrote the sequence `xs` to `v[ra]` and nothing else
(00_scope.md R13; 10_state.md R44). -/
def completedV (s : State) (ra : VReg) (xs : List Word) : State :=
  { s with
    mem := { s.mem with v := s.mem.v.set ra.val (Buffer.ofList xs) }
    cmdcnt := s.cmdcnt + 1#32 }

/-- The state after fault entry for the command word `w`: the record is written and nothing else
(60_exceptions.md R324, R325). -/
def faultedWith (s : State) (w fault info0 info1 : Word) : State :=
  { s with fr := { faulted := true, fault := fault, finfo0 := info0, finfo1 := info1, fcmd := w } }

/-- Grid point `k` of `n` on `[-D, D)` (41_filter_kernel.md R162, R165). -/
def gridPoint (d : Word) (n k : Nat) : Word :=
  F32.add (F32.neg d)
    (F32.mul (F32.ofNat k) (F32.div (F32.sub d (F32.neg d)) (F32.ofNat n)))

/-- The tap at grid point `a` (41_filter_kernel.md R164). -/
def tapAt (body : Word → Word → Word → Word) (limit : Word → Word → Word) (tol t beta a : Word) :
    Word :=
  let dist := F32.sub (F32.abs a) (F32.div t (F32.mul 0x40000000#32 beta))
  if F32.isNaN dist = false ∧ F32.scaledMag (F32.abs dist) ≤ F32.scaledMag tol then limit t beta
  else body a t beta

/-- The `n` taps on the grid (41_filter_kernel.md R165). -/
def taps (body : Word → Word → Word → Word) (limit : Word → Word → Word) (tol t beta d : Word)
    (n : Nat) : List Word :=
  (List.range n).map fun k => tapAt body limit tol t beta (gridPoint d n k)

/-- The sum from the left, starting at +0.0 (41_filter_kernel.md R168). -/
def leftSum (xs : List Word) : Word := xs.foldl F32.add 0x00000000#32

/-- The phase angle of index `k` of MAP in units of π/4 (43_complex_upsampler.md R222). -/
def mapIndex (o : Bool) (symbols : List Word) (k : Nat) : Nat :=
  let symbol := if k < 8 then 0 else (symbols.getD (k - 8) 0#32).toNat
  2 * (symbol % 4) + (if o = true ∧ k % 2 = 0 then 1 else 0)

/-- The constellation pair at index `k` of MAP (43_complex_upsampler.md R222, R223). -/
def mapPair (rom : Vector (Word × Word) 8) (o : Bool) (symbols : List Word) (k : Nat) : Word × Word :=
  rom.toList.getD (mapIndex o symbols k) (0#32, 0#32)

/-- The desired length of STRETCH (43_complex_upsampler.md R230, R231). -/
def desired (s : State) (h : Bool) : Nat :=
  s.p.vlen.toNat + (if h then 8 * s.p.fs.toNat / s.p.baud.toNat else 0)

/-- Complex multiply (42_fft_convolution.md R191). -/
def complexMul (x y : C32) : C32 :=
  { re := F32.sub (F32.mul x.re y.re) (F32.mul x.im y.im)
    im := F32.add (F32.mul x.re y.im) (F32.mul x.im y.re) }

/-- Zero padding to `size` complex elements (42_fft_convolution.md R192). -/
def zeroPad (xs : List Word) (size : Nat) : List C32 :=
  xs.map (fun x => { re := x, im := 0x00000000#32 }) ++
    List.replicate (size - xs.length) { re := 0x00000000#32, im := 0x00000000#32 }

/-- Steps 1 to 6 of CONV (42_fft_convolution.md R193). -/
def convolution (signal kernel : List Word) : List Word :=
  let size := signal.length + kernel.length - 1
  let shift := kernel.length / 2
  let xs := F32.fft size (zeroPad signal size)
  let xk := F32.fft size (zeroPad kernel size)
  let raw := F32.ifft size (List.zipWith complexMul xs xk)
  (raw.drop shift).map fun z => F32.div z.re (leftSum kernel)

/-- The carrier phase of sample `n` (44_quadrature_mixer.md R251). -/
def carrierPhase (fc fs : Word) (n : Nat) : Word :=
  F32.div (F32.mul (F32.mul (F32.mul 0x40000000#32 0x40490FDB#32) fc) (F32.ofNat n))
    (F32.ofNat fs.toNat)

/-- Sample `n` of MIX (44_quadrature_mixer.md R252). -/
def mixed (fc fs : Word) (is qs : List Word) (n : Nat) : Word :=
  F32.add (F32.mul (is.getD n 0#32) (F32.sin (carrierPhase fc fs n)))
    (F32.mul (qs.getD n 0#32) (F32.cos (carrierPhase fc fs n)))

/-- A product QUANT converts without a fault (46_fixed_point_quantizer.md R283, R285). -/
def convertible (mode : QRound) (y : Word) : Prop :=
  F32.isFinite y = true ∧ -2147483648 ≤ F32.toInt mode y ∧ F32.toInt mode y ≤ 2147483647

/-- The vector registers a command writes (30_encoding.md R115). -/
def vectorDestinations : Instr → List VReg
  | .gen => []
  | .ksyn ra _ => [ra]
  | .map ra rb _ => [ra, rb]
  | .stretch ra _ _ => [ra]
  | .conv ra _ _ => [ra]
  | .vmul ra _ => [ra]
  | .mix ra _ _ => [ra]
  | .vacc ra _ _ => [ra]
  | .quant _ => []

/-- The read-write parameter registers (10_state.md R31). -/
def parameterRegs : List ScalarReg :=
  [.seed, .count, .modulus, .vlen, .fs, .baud, .fc, .gain, .kt, .kbeta, .kd, .kn]

/-- The read-only scalar registers (20_memory.md R90). -/
def readOnlyRegs : List ScalarReg :=
  [.id, .status, .fault, .finfo0, .finfo1, .fcmd, .cmdcnt, .prsgS, .audlen]

/-- The byte offset of a scalar register (20_memory.md R82). -/
def registerAddress : ScalarReg → Nat
  | .id => 0x000
  | .cmd => 0x004
  | .status => 0x008
  | .fault => 0x00C
  | .finfo0 => 0x010
  | .finfo1 => 0x014
  | .fcmd => 0x018
  | .cmdcnt => 0x01C
  | .ctrl => 0x020
  | .seed => 0x040
  | .count => 0x044
  | .modulus => 0x048
  | .vlen => 0x04C
  | .fs => 0x050
  | .baud => 0x054
  | .fc => 0x058
  | .gain => 0x05C
  | .kt => 0x060
  | .kbeta => 0x064
  | .kd => 0x068
  | .kn => 0x06C
  | .prsgS => 0x070
  | .vl i => 0x080 + 4 * i.val
  | .symlen => 0x0A0
  | .audlen => 0x0A4

/-- A host read of a scalar register (20_memory.md R84). -/
def registerRead (r : ScalarReg) : HostEvent := .read (BitVec.ofNat 32 (registerAddress r)) 4

/-- A host write of a scalar register (20_memory.md R85). -/
def registerWrite (r : ScalarReg) (w : Word) : HostEvent :=
  .write (BitVec.ofNat 32 (registerAddress r)) 4 w

/-- The current value of a scalar register, written out from the fields of the state; absent for the write-only
ones (10_state.md R41 to R52). -/
def registerValue (s : State) : ScalarReg → Option Word
  | .id => some 0x50525347#32
  | .cmd => none
  | .status => some (if s.fr.faulted = true then 1#32 else 0#32)
  | .fault => some s.fr.fault
  | .finfo0 => some s.fr.finfo0
  | .finfo1 => some s.fr.finfo1
  | .fcmd => some s.fr.fcmd
  | .cmdcnt => some s.cmdcnt
  | .ctrl => none
  | .seed => some s.p.seed
  | .count => some s.p.count
  | .modulus => some s.p.modulus
  | .vlen => some s.p.vlen
  | .fs => some s.p.fs
  | .baud => some s.p.baud
  | .fc => some s.p.fc
  | .gain => some s.p.gain
  | .kt => some s.p.kt
  | .kbeta => some s.p.kbeta
  | .kd => some s.p.kd
  | .kn => some s.p.kn
  | .prsgS => some s.prsgS
  | .vl i => some (BitVec.ofNat 32 (s.mem.v.get i).len)
  | .symlen => some (BitVec.ofNat 32 s.mem.sym.len)
  | .audlen => some (BitVec.ofNat 32 s.mem.aud.len)

/-- The state after a transaction that changes nothing but the port (20_memory.md R84, R90). -/
def replied (s : State) (rest : List HostEvent) (r : Reply) : State :=
  { s with inbox := rest, reply := some r }

/-- The event resets the block: the reset input, or a `CTRL` write with bit 0 set (60_exceptions.md R327). -/
def isReset : HostEvent → Prop
  | .rst => True
  | .write addr size w => addr = 0x020#32 ∧ size = 4 ∧ w.getLsbD 0 = true
  | .read _ _ => False

/-- The architectural part of two states is the same (10_state.md R30). -/
def sameBlock (s t : State) : Prop :=
  s.p = t.p ∧ s.fr = t.fr ∧ s.cmdcnt = t.cmdcnt ∧ s.prsgS = t.prsgS ∧ s.mem = t.mem ∧ s.inst = t.inst

end Sys2Proof.Claims

open Sys2Proof Sys2Proof.Machine Sys2Proof.Claims

/-! ### Reset -/

/-- 10_state.md R58: every readable register but `ID` reads 0, `ID` reads its constant, every buffer has length 0
and no cell, so no element has a value, and none gets one when a length is raised (R48). -/
def Obligations.ResetStateMatchesTable : Prop :=
  readScalar State.reset .id = some 0x50525347#32 ∧
  (∀ r w, r ≠ .id → readScalar State.reset r = some w → w = 0#32) ∧
  State.reset.mem = Memory.empty ∧
  (∀ i, (State.reset.vreg i).len = 0 ∧ (State.reset.vreg i).cells = []) ∧
  (State.reset.mem.sym.len = 0 ∧ State.reset.mem.sym.cells = []) ∧
  (State.reset.mem.aud.len = 0 ∧ State.reset.mem.aud.cells = []) ∧
  (∀ i n k, ((State.reset.vreg i).setLen n).element? k = none) ∧
  (∀ n k, (State.reset.mem.sym.setLen n).element? k = none) ∧
  (∀ n k, (State.reset.mem.aud.setLen n).element? k = none) ∧
  FaultFree State.reset

/-- The invariant holds at reset, whatever the OPEN parameters are (entries 5 and 6). -/
def Obligations.ResetSatisfiesInvariant : Prop := BlockInvariant State.reset

/-- 70_reset_and_hazards.md R360: a pulse of the reset input gives the reset state; the instance's parameters and
what the host has issued stay (entries 17, 25). -/
def Obligations.PinResetGivesResetState : Prop :=
  ∀ (s : State) (rest : List HostEvent), s.inbox = .rst :: rest →
    step s = .next { State.reset with inst := s.inst, inbox := rest, draws := s.draws }

/-- 10_state.md R46, 70_reset_and_hazards.md R361: a `CTRL` write with bit 0 set resets and completes; with bit 0
clear it does nothing; bits 31:1 do not matter. What a reset leaves of the model's own fields is the
model's choice (entry 25). -/
def Obligations.ControlWriteResetsOnBitZero : Prop :=
  ∀ (s : State) (w : Word) (rest : List HostEvent), s.inbox = .write 0x020#32 4 w :: rest →
    (w.getLsbD 0 = true → step s = .next
      { State.reset with inst := s.inst, inbox := rest, draws := s.draws, reply := some .ack }) ∧
    (w.getLsbD 0 = false → step s = .next (replied s rest .ack))

/-! ### Decoding and dispatch -/

/-- A `CMD` write of a legal word, without a fault, runs exactly the decoded command and is acknowledged when it
ends (30_encoding.md R111, R112). That the write is the oldest event of the inbox is the model's form of the
transaction (entry 1). -/
def Obligations.StepRunsDecodedCommand : Prop :=
  ∀ (s : State) (w : Word) (i : Instr) (rest : List HostEvent),
    s.inbox = .write 0x004#32 4 w :: rest → s.fr.faulted = false → decode w = .ok i →
      i.wellFormed = true ∧
      step s =
        (match exec i { s with inbox := rest } with
         | .next t => .next { t with reply := some .ack }
         | .fault f => .fault f
         | .refused r => .refused r)

/-- 60_exceptions.md R322, R325: an illegal word raises `ILLEGAL_CMD`; `FCMD` and `FINFO0` hold the word. -/
def Obligations.IllegalWordFaults : Prop :=
  ∀ (s : State) (w : Word) (e : Illegal) (rest : List HostEvent),
    s.inbox = .write 0x004#32 4 w :: rest → s.fr.faulted = false → decode w = .error e →
      step s = .next (faultedWith (replied s rest .ack) w 1#32 w 0#32)

/-- 60_exceptions.md R326: under `FAULTED` every `CMD` write is acknowledged and ignored. -/
def Obligations.CommandIgnoredUnderFault : Prop :=
  ∀ (s : State) (w : Word) (rest : List HostEvent),
    s.inbox = .write 0x004#32 4 w :: rest → s.fr.faulted = true →
      step s = .next (replied s rest .ack)

/-- 30_encoding.md R131: the worked encodings, legal and illegal. -/
def Obligations.WorkedEncodingsDecode : Prop :=
  decode 0x01000000#32 = .ok .gen ∧
  decode 0x02700000#32 = .ok (.ksyn 7 false) ∧
  decode 0x02700001#32 = .ok (.ksyn 7 true) ∧
  decode 0x03010000#32 = .ok (.map 0 1 false) ∧
  decode 0x03010001#32 = .ok (.map 0 1 true) ∧
  decode 0x04200001#32 = .ok (.stretch 2 0 true) ∧
  decode 0x04310001#32 = .ok (.stretch 3 1 true) ∧
  decode 0x04100000#32 = .ok (.stretch 1 0 false) ∧
  decode 0x05027000#32 = .ok (.conv 0 2 7) ∧
  decode 0x05137000#32 = .ok (.conv 1 3 7) ∧
  decode 0x06010000#32 = .ok (.vmul 0 1) ∧
  decode 0x07201000#32 = .ok (.mix 2 0 1) ∧
  decode 0x08620001#32 = .ok (.vacc 6 2 true) ∧
  decode 0x08620000#32 = .ok (.vacc 6 2 false) ∧
  decode 0x09060000#32 = .ok (.quant 6) ∧
  (decode 0x00000000#32).toOption = none ∧
  (decode 0x03110000#32).toOption = none ∧
  (decode 0x02800000#32).toOption = none ∧
  (decode 0x01000001#32).toOption = none ∧
  (decode 0x09160000#32).toOption = none

/-- Decode and encode agree: the word of every well-formed instruction decodes to it, with every operand at
every value. -/
def Obligations.EncodedCommandsDecodeBack : Prop :=
  ∀ i : Instr, i.wellFormed = true → decode (encode i) = .ok i

/-- The other direction: a word that decodes is the encoding of what it decodes to, so every bit is accounted
for, and the instruction is well formed. -/
def Obligations.DecodedWordsEncodeBack : Prop :=
  ∀ (w : Word) (i : Instr), decode w = .ok i → encode i = w ∧ i.wellFormed = true

/-- 30_encoding.md R125, with the match and mask of R116 to R124: a word decodes to a command of a row exactly
when its masked bits are the row's match, and, for MAP, its two registers differ. -/
def Obligations.DecoderFollowsMatchAndMask : Prop :=
  ∀ w : Word,
    (decode w = .ok .gen ↔ w &&& 0xFFFFFFFF#32 = 0x01000000#32) ∧
    ((∃ ra n, decode w = .ok (.ksyn ra n)) ↔ w &&& 0xFF8FFFFE#32 = 0x02000000#32) ∧
    ((∃ ra rb o, decode w = .ok (.map ra rb o)) ↔
      w &&& 0xFF88FFFE#32 = 0x03000000#32 ∧ bits w 23 20 ≠ bits w 19 16) ∧
    ((∃ ra rb h, decode w = .ok (.stretch ra rb h)) ↔ w &&& 0xFF88FFFE#32 = 0x04000000#32) ∧
    ((∃ ra rb rc, decode w = .ok (.conv ra rb rc)) ↔ w &&& 0xFF888FFF#32 = 0x05000000#32) ∧
    ((∃ ra rb, decode w = .ok (.vmul ra rb)) ↔ w &&& 0xFF88FFFF#32 = 0x06000000#32) ∧
    ((∃ ra rb rc, decode w = .ok (.mix ra rb rc)) ↔ w &&& 0xFF888FFF#32 = 0x07000000#32) ∧
    ((∃ ra rb i, decode w = .ok (.vacc ra rb i)) ↔ w &&& 0xFF88FFFE#32 = 0x08000000#32) ∧
    ((∃ rb, decode w = .ok (.quant rb)) ↔ w &&& 0xFFF8FFFF#32 = 0x09000000#32)

/-! ### GEN -/

/-- GEN completes: the symbols are the reduced states of the squaring sequence, `PRSG_S` the last state formed
(the first one for a count of 0), `CMDCNT` counts, and nothing else changes (R142, R146). -/
def Obligations.GenWritesSquaringSequence : Prop :=
  ∀ s : State, s.p.modulus ≠ 0#32 → s.p.count.toNat ≤ s.inst.vlmax →
    exec .gen s = .next
      { s with
        mem := { s.mem with
          sym := Buffer.ofList ((List.range s.p.count.toNat).map fun i =>
            BitVec.ofNat 32 (prsgState s.inst.prsgP s.p.seed.toNat i % s.p.modulus.toNat)) }
        prsgS := BitVec.ofNat 32 (prsgState s.inst.prsgP s.p.seed.toNat (s.p.count.toNat - 1))
        cmdcnt := s.cmdcnt + 1#32 }

/-- 40_symbol_generator.md R143: `MODULUS` = 0 faults `PARAM`, subcode 1, whatever `COUNT` is. -/
def Obligations.GenZeroModulusFaults : Prop :=
  ∀ s : State, s.p.modulus = 0#32 →
    exec .gen s = .next (faultedWith s 0x01000000#32 6#32 1#32 0#32)

/-- 40_symbol_generator.md R144: `COUNT` above `VLMAX` faults `CAPACITY`. -/
def Obligations.GenCountBeyondCapacityFaults : Prop :=
  ∀ s : State, s.p.modulus ≠ 0#32 → s.inst.vlmax < s.p.count.toNat →
    exec .gen s =
      .next (faultedWith s 0x01000000#32 5#32 s.p.count (BitVec.ofNat 32 s.inst.vlmax))

/-- Every symbol GEN writes is below `MODULUS`, and GEN with a smaller count writes a prefix (R147). -/
def Obligations.GenSymbolsBelowModulus : Prop :=
  ∀ s t : State, s.p.modulus ≠ 0#32 → s.p.count.toNat ≤ s.inst.vlmax → exec .gen s = .next t →
    (∀ k x, t.mem.sym.element? k = some x → x.toNat < s.p.modulus.toNat) ∧
    (∀ c : Word, c.toNat ≤ s.p.count.toNat →
      ∃ t', exec .gen { s with p := { s.p with count := c } } = .next t' ∧
        ∀ k, k < c.toNat → t'.mem.sym.element? k = t.mem.sym.element? k)

/-! ### KSYN -/

/-- KSYN completes when every tap, and with `N` every normalised tap, is a normal number: `v[ra]` holds the taps
of the grid in index order, divided by their left-to-right sum with `N`, and nothing else changes (R165). -/
def Obligations.KsynStoresTapsOfTheGrid : Prop :=
  ∀ (s : State) (ra : VReg) (n : Bool),
    let xs := taps Config.kbody Config.klimit s.inst.ksynTol s.p.kt s.p.kbeta s.p.kd s.p.kn.toNat
    s.p.kn.toNat ≤ s.inst.vlmax → (∀ x ∈ xs, F32.isNormal x = true) →
    (n = true → ∀ x ∈ xs, F32.isNormal (F32.div x (leftSum xs)) = true) →
      exec (.ksyn ra n) s =
        .next (completedV s ra (if n then xs.map fun x => F32.div x (leftSum xs) else xs))

/-- 41_filter_kernel.md R173: `KN` above `VLMAX` faults `CAPACITY`, whatever the taps would be. -/
def Obligations.KsynTapCountBeyondCapacityFaults : Prop :=
  ∀ (s : State) (ra : VReg) (n : Bool), s.inst.vlmax < s.p.kn.toNat →
    exec (.ksyn ra n) s = .next
      (faultedWith s (encode (.ksyn ra n)) 5#32 s.p.kn (BitVec.ofNat 32 s.inst.vlmax))

/-- KSYN is the synthesis of its parameters: a fault it finds is taken, taps it gives are stored (R165). -/
def Obligations.KsynRunsSynthesis : Prop :=
  ∀ (s : State) (ra : VReg) (n : Bool), s.p.kn.toNat ≤ s.inst.vlmax →
    exec (.ksyn ra n) s = .next
      (match synthesize Config.kbody Config.klimit s.inst.ksynTol s.p.kt s.p.kbeta s.p.kd
          s.p.kn.toNat n with
       | .error r =>
         faultedWith s (encode (.ksyn ra n)) (faultWord r.aux r.code) r.info0 r.info1
       | .ok xs => completedV s ra xs)

/-- The synthesis faults at the first computed tap that is not normal, with its pattern, its grid point, its
index in `FAULT[30:8]` and stage 0, whatever the kernel functions are (R165, R170, R171). -/
def Obligations.SynthesisFaultsAtFirstComputedTap : Prop :=
  ∀ (body : Word → Word → Word → Word) (limit : Word → Word → Word) (tol t beta d : Word)
    (n k : Nat) (norm : Bool),
    let xs := taps body limit tol t beta d n
    k < n → (∀ j, j < k → F32.isNormal (xs.getD j 0#32) = true) →
    F32.isNormal (xs.getD k 0#32) = false →
      synthesize body limit tol t beta d n norm = .error
        { code := .ktapDegenerate, info0 := xs.getD k 0#32, info1 := gridPoint d n k
          aux := BitVec.ofNat 24 (k % 2 ^ 23) }

/-- With `N`, and every computed tap normal, the synthesis faults at the first normalised tap that is not
normal, stage 1 in `FAULT[31]` (R165, R170, R171). -/
def Obligations.SynthesisFaultsAtFirstNormalisedTap : Prop :=
  ∀ (body : Word → Word → Word → Word) (limit : Word → Word → Word) (tol t beta d : Word) (n k : Nat),
    let xs := taps body limit tol t beta d n
    let us := xs.map fun x => F32.div x (leftSum xs)
    k < n → (∀ x ∈ xs, F32.isNormal x = true) →
    (∀ j, j < k → F32.isNormal (us.getD j 0#32) = true) →
    F32.isNormal (us.getD k 0#32) = false →
      synthesize body limit tol t beta d n true = .error
        { code := .ktapDegenerate, info0 := us.getD k 0#32, info1 := gridPoint d n k
          aux := BitVec.ofNat 24 (2 ^ 23 + k % 2 ^ 23) }

/-- A kernel that synthesis gives has the requested tap count and normal taps only (R160, R167). -/
def Obligations.SynthesisedTapsAreNormal : Prop :=
  ∀ (body : Word → Word → Word → Word) (limit : Word → Word → Word) (tol t beta d : Word) (n : Nat)
    (norm : Bool) (xs : List Word),
    synthesize body limit tol t beta d n norm = .ok xs →
      xs.length = n ∧ ∀ x ∈ xs, F32.isNormal x = true

/-- KSYN's outcome depends on its four parameter registers, its flag and the instance alone: from two states that
agree on them it takes the same fault or stores the same taps (R167). -/
def Obligations.KsynDependsOnItsParametersOnly : Prop :=
  ∀ (s s' : State) (ra : VReg) (n : Bool),
    s.p.kt = s'.p.kt → s.p.kbeta = s'.p.kbeta → s.p.kd = s'.p.kd → s.p.kn = s'.p.kn →
    s.inst = s'.inst →
      (∃ fault i0 i1,
        exec (.ksyn ra n) s = .next (faultedWith s (encode (.ksyn ra n)) fault i0 i1) ∧
        exec (.ksyn ra n) s' = .next (faultedWith s' (encode (.ksyn ra n)) fault i0 i1)) ∨
      (∃ xs, xs.length = s.p.kn.toNat ∧ exec (.ksyn ra n) s = .next (completedV s ra xs) ∧
        exec (.ksyn ra n) s' = .next (completedV s' ra xs))

/-! ### MAP and STRETCH -/

/-- MAP completes: both branches get the header and the symbols, mapped through the constellation table, and
nothing else changes (R221, R222). -/
def Obligations.MapWritesBothBranches : Prop :=
  ∀ (s : State) (ra rb : VReg) (o : Bool) (symbols : List Word),
    ra ≠ rb → s.mem.sym.contents = some symbols → 8 + s.mem.sym.len ≤ s.inst.vlmax →
      exec (.map ra rb o) s = .next
        { s with
          mem := { s.mem with
            v := (s.mem.v.set ra.val (Buffer.ofList ((List.range (8 + symbols.length)).map fun k =>
                (mapPair s.inst.maprom o symbols k).1))).set rb.val
              (Buffer.ofList ((List.range (8 + symbols.length)).map fun k =>
                (mapPair s.inst.maprom o symbols k).2)) }
          cmdcnt := s.cmdcnt + 1#32 }

/-- 43_complex_upsampler.md R227: `HEADER_LEN + SYM.len` above `VLMAX` faults `CAPACITY`. -/
def Obligations.MapBeyondCapacityFaults : Prop :=
  ∀ (s : State) (ra rb : VReg) (o : Bool), ra ≠ rb → s.inst.vlmax < 8 + s.mem.sym.len →
    exec (.map ra rb o) s = .next
      (faultedWith s (encode (.map ra rb o)) 5#32 (saturate (8 + s.mem.sym.len))
        (saturate s.inst.vlmax))

/-- STRETCH completes: every element `per` times in order, then the last one `rem` times more, bit for bit, and
nothing else changes (R230). -/
def Obligations.StretchHoldsSamples : Prop :=
  ∀ (s : State) (ra rb : VReg) (h : Bool) (xs : List Word),
    (h = true → s.p.baud ≠ 0#32) → s.source rb = some xs → xs ≠ [] →
    desired s h ≤ s.inst.vlmax →
      exec (.stretch ra rb h) s = .next (completedV s ra
        (xs.flatMap (List.replicate (desired s h / xs.length)) ++
          List.replicate (desired s h % xs.length) (xs.getLastD 0#32)))

/-- The faults of STRETCH in their order (R231, R232, R233, 60_exceptions.md R323). -/
def Obligations.StretchFaultsInOrder : Prop :=
  ∀ (s : State) (ra rb : VReg) (h : Bool),
    (h = true → s.p.baud = 0#32 →
      exec (.stretch ra rb h) s =
        .next (faultedWith s (encode (.stretch ra rb h)) 6#32 2#32 0#32)) ∧
    ((h = true → s.p.baud ≠ 0#32) → s.vlength rb = 0 →
      exec (.stretch ra rb h) s =
        .next (faultedWith s (encode (.stretch ra rb h)) 3#32 0#32 (saturate (desired s h)))) ∧
    ((h = true → s.p.baud ≠ 0#32) → s.vlength rb ≠ 0 → s.inst.vlmax < desired s h →
      exec (.stretch ra rb h) s =
        .next (faultedWith s (encode (.stretch ra rb h)) 5#32 (saturate (desired s h))
          (saturate s.inst.vlmax)))

/-! ### CONV and VMUL -/

/-- CONV completes: the six steps on the two operands, and nothing else changes (R193). -/
def Obligations.ConvDividesShiftedProduct : Prop :=
  ∀ (s : State) (ra rb rc : VReg) (signal kernel : List Word),
    s.source rb = some signal → s.source rc = some kernel → signal ≠ [] → kernel ≠ [] →
    2 ≤ signal.length + kernel.length - 1 →
    signal.length + kernel.length - 1 - kernel.length / 2 ≤ s.inst.vlmax →
      exec (.conv ra rb rc) s = .next (completedV s ra (convolution signal kernel))

/-- 42_fft_convolution.md R194: an empty signal, an empty kernel, or one sample each faults `EMPTY_INPUT`. -/
def Obligations.ConvDegenerateLengthsFault : Prop :=
  ∀ (s : State) (ra rb rc : VReg),
    (s.vlength rb = 0 ∨ s.vlength rc = 0 ∨ (s.vlength rb = 1 ∧ s.vlength rc = 1)) →
      exec (.conv ra rb rc) s = .next
        (faultedWith s (encode (.conv ra rb rc)) 3#32 (saturate (s.vlength rb))
          (saturate (s.vlength rc)))

/-- A result longer than `VLMAX` faults `CAPACITY` (R199). -/
def Obligations.ConvBeyondCapacityFaults : Prop :=
  ∀ (s : State) (ra rb rc : VReg),
    s.vlength rb ≠ 0 → s.vlength rc ≠ 0 → 2 ≤ s.vlength rb + s.vlength rc - 1 →
    s.inst.vlmax < s.vlength rb + s.vlength rc - 1 - s.vlength rc / 2 →
      exec (.conv ra rb rc) s = .next
        (faultedWith s (encode (.conv ra rb rc)) 5#32
          (saturate (s.vlength rb + s.vlength rc - 1 - s.vlength rc / 2))
          (saturate s.inst.vlmax))

/-- A CONV that completes leaves the destination with the valid prefix, every sample of which has a value, and
nothing beyond it (R198; 10_state.md R48). -/
def Obligations.ConvLengthIsValidPrefix : Prop :=
  ∀ (s t : State) (ra rb rc : VReg), FaultFree s → exec (.conv ra rb rc) s = .next t → FaultFree t →
    t.vlength ra = s.vlength rb + s.vlength rc - 1 - s.vlength rc / 2 ∧
    ∀ k, ((t.vreg ra).element? k).isSome = decide (k < t.vlength ra)

/-- VMUL completes: the elementwise product in place, and nothing else changes (R205). -/
def Obligations.VmulMultipliesInPlace : Prop :=
  ∀ (s : State) (ra rb : VReg) (xs ys : List Word),
    s.source ra = some xs → s.source rb = some ys → xs.length = ys.length →
      exec (.vmul ra rb) s = .next (completedV s ra
        ((List.range xs.length).map fun k => F32.mul (xs.getD k 0#32) (ys.getD k 0#32)))

/-! ### MIX and VACC -/

/-- MIX completes: `I·sin θ + Q·cos θ` sample by sample, and nothing else changes (R251, R252). -/
def Obligations.MixModulatesCarrier : Prop :=
  ∀ (s : State) (ra rb rc : VReg) (is qs : List Word),
    s.source rb = some is → s.source rc = some qs → is.length = qs.length →
      exec (.mix ra rb rc) s = .next (completedV s ra
        ((List.range is.length).map (mixed s.p.fc s.p.fs is qs)))

/-- VACC completes: with `I` a copy of the addend whatever the accumulator holds, without it the elementwise sum,
and nothing else changes (R267, R269). -/
def Obligations.VaccAddsOrCopies : Prop :=
  ∀ (s : State) (ra rb : VReg) (ys : List Word), s.source rb = some ys →
    exec (.vacc ra rb true) s = .next (completedV s ra ys) ∧
    ∀ xs, s.source ra = some xs → xs.length = ys.length →
      exec (.vacc ra rb false) s = .next (completedV s ra
        ((List.range xs.length).map fun k => F32.add (xs.getD k 0#32) (ys.getD k 0#32)))

/-- Operands of unequal length fault `LEN_MISMATCH` in VMUL, in MIX (R253) and in VACC without `I` (R268), with the
two lengths in operand order (60_exceptions.md R321). -/
def Obligations.LengthMismatchFaults : Prop :=
  ∀ (s : State) (ra rb rc : VReg),
    (s.vlength ra ≠ s.vlength rb →
      exec (.vmul ra rb) s = .next (faultedWith s (encode (.vmul ra rb)) 2#32
        (saturate (s.vlength ra)) (saturate (s.vlength rb))) ∧
      exec (.vacc ra rb false) s = .next (faultedWith s (encode (.vacc ra rb false)) 2#32
        (saturate (s.vlength ra)) (saturate (s.vlength rb)))) ∧
    (s.vlength rb ≠ s.vlength rc →
      exec (.mix ra rb rc) s = .next (faultedWith s (encode (.mix ra rb rc)) 2#32
        (saturate (s.vlength rb)) (saturate (s.vlength rc))))

/-! ### QUANT -/

/-- QUANT completes when every product is finite and its integer fits 32 bits: `AUD` holds the wrapped integers,
and nothing else changes (R282). -/
def Obligations.QuantWrapsProducts : Prop :=
  ∀ (s : State) (rb : VReg) (xs : List Word), s.source rb = some xs →
    (∀ x ∈ xs, convertible s.inst.qround (F32.mul s.p.gain x)) →
      exec (.quant rb) s = .next
        { s with
          mem := { s.mem with
            aud := Buffer.ofList (xs.map fun x =>
              BitVec.ofInt 16 (F32.toInt s.inst.qround (F32.mul s.p.gain x))) }
          cmdcnt := s.cmdcnt + 1#32 }

/-- QUANT faults at the first sample, in index order, whose product is not finite (`QUANT_NONFINITE`) or whose
integer does not fit (`QUANT_RANGE`), whatever follows it (R282, R283, R285, R286). -/
def Obligations.QuantFaultsAtFirstBadSample : Prop :=
  ∀ (s : State) (rb : VReg) (k : Nat) (e : Word),
    (s.vreg rb).element? k = some e →
    (∀ j, j < k → ∃ x, (s.vreg rb).element? j = some x ∧
      convertible s.inst.qround (F32.mul s.p.gain x)) →
    (F32.isFinite (F32.mul s.p.gain e) = false →
      exec (.quant rb) s = .next (faultedWith s (encode (.quant rb)) 7#32 (saturate k)
        (F32.mul s.p.gain e))) ∧
    (F32.isFinite (F32.mul s.p.gain e) = true →
      ¬ convertible s.inst.qround (F32.mul s.p.gain e) →
      exec (.quant rb) s = .next (faultedWith s (encode (.quant rb)) 8#32 (saturate k)
        (F32.mul s.p.gain e)))

/-- The two conversions of 46_fixed_point_quantizer.md R281, as 00_scope.md R10 defines them: rounding toward zero,
and to the nearest integer with ties to even. `2^149` units of `scaled` are one. -/
def Obligations.IntegerConversionRoundsAsSelected : Prop :=
  ∀ x : Word,
    F32.toInt .trunc x = (F32.scaled x).tdiv (2 ^ 149) ∧
    2 * (2 ^ 149 * F32.toInt .nearestEven x - F32.scaled x).natAbs ≤ 2 ^ 149 ∧
    (2 * (2 ^ 149 * F32.toInt .nearestEven x - F32.scaled x).natAbs = 2 ^ 149 →
      F32.toInt .nearestEven x % 2 = 0)

/-- `wrap16` gives the 16-bit integer congruent to its operand modulo 65536 (R284; 00_scope.md R10). -/
def Obligations.WrapKeepsLowSixteenBits : Prop :=
  ∀ z : Int, (F32.wrap16 z).toInt % 65536 = z % 65536 ∧
    -32768 ≤ (F32.wrap16 z).toInt ∧ (F32.wrap16 z).toInt ≤ 32767

/-! ### All commands -/

/-- A command that would read an element without a value is refused, once its checks on lengths and parameters
have passed: any element for VMUL, VACC, MIX, CONV and MAP; for STRETCH any element when the output is at
least as long as the source, and the last one whenever there is output; for QUANT the first unwritten element
if every product before it converts (10_state.md R48; 60_exceptions.md R337 (4); entries 8 and 16). -/
def Obligations.UnwrittenOperandsAreRefused : Prop :=
  ∀ (s : State) (ra rb rc : VReg) (flag : Bool),
    (s.source ra = none ∨ s.source rb = none → s.vlength ra = s.vlength rb →
      exec (.vmul ra rb) s = .refused .unwrittenElement ∧
      exec (.vacc ra rb false) s = .refused .unwrittenElement) ∧
    (s.source rb = none → exec (.vacc ra rb true) s = .refused .unwrittenElement) ∧
    (s.source rb = none ∨ s.source rc = none → s.vlength rb = s.vlength rc →
      exec (.mix ra rb rc) s = .refused .unwrittenElement) ∧
    (s.source rb = none ∨ s.source rc = none → s.vlength rb ≠ 0 → s.vlength rc ≠ 0 →
      2 ≤ s.vlength rb + s.vlength rc - 1 →
      s.vlength rb + s.vlength rc - 1 - s.vlength rc / 2 ≤ s.inst.vlmax →
      exec (.conv ra rb rc) s = .refused .unwrittenElement) ∧
    (s.mem.sym.contents = none → 8 + s.mem.sym.len ≤ s.inst.vlmax →
      exec (.map ra rb flag) s = .refused .unwrittenElement) ∧
    (s.source rb = none → (flag = true → s.p.baud ≠ 0#32) → s.vlength rb ≤ desired s flag →
      desired s flag ≤ s.inst.vlmax →
      exec (.stretch ra rb flag) s = .refused .unwrittenElement) ∧
    ((s.vreg rb).element? (s.vlength rb - 1) = none → s.vlength rb ≠ 0 →
      (flag = true → s.p.baud ≠ 0#32) → 0 < desired s flag → desired s flag ≤ s.inst.vlmax →
      exec (.stretch ra rb flag) s = .refused .unwrittenElement) ∧
    (∀ k, k < s.vlength rb → (s.vreg rb).element? k = none →
      (∀ j, j < k → ∃ x, (s.vreg rb).element? j = some x ∧
        convertible s.inst.qround (F32.mul s.p.gain x)) →
      exec (.quant rb) s = .refused .unwrittenElement)

/-- When every element below its length has a value, every command ends, by completion or by fault entry
(20_memory.md R93): nothing is refused. -/
def Obligations.CommandsEndWhenElementsAreWritten : Prop :=
  ∀ (s : State) (i : Instr), (∀ j, (s.source j).isSome = true) → s.mem.sym.contents.isSome = true →
    ∃ t, exec i s = .next t

/-- Faults are precise, and completed commands count: a command that ends has left the fault record alone and
counted itself, or has written the fault record and nothing else (10_state.md R44; 60_exceptions.md R324). -/
def Obligations.CommandsFaultPreciselyOrCount : Prop :=
  ∀ (s t : State) (i : Instr), exec i s = .next t →
    (t.fr = s.fr ∧ t.cmdcnt = s.cmdcnt + 1#32) ∨
    (∃ fault i0 i1, t = faultedWith s (encode i) fault i0 i1 ∧
      1 ≤ fault.toNat % 256 ∧ fault.toNat % 256 ≤ 8)

/-- A command writes its destinations and no other: no other vector register, `SYM` and `PRSG_S` only by GEN, `AUD`
only by QUANT, never a parameter register (30_encoding.md R115; 10_state.md R31). -/
def Obligations.CommandsWriteOnlyDestinations : Prop :=
  ∀ (s t : State) (i : Instr), exec i s = .next t →
    t.p = s.p ∧ t.inst = s.inst ∧ t.inbox = s.inbox ∧ t.reply = s.reply ∧ t.draws = s.draws ∧
    (∀ j, j ∉ vectorDestinations i → t.vreg j = s.vreg j) ∧
    (i ≠ .gen → t.mem.sym = s.mem.sym ∧ t.prsgS = s.prsgS) ∧
    ((∀ rb, i ≠ .quant rb) → t.mem.aud = s.mem.aud)

/-! ### The host port -/

/-- 20_memory.md R84: a read of a readable scalar register answers its current value, written out register by
register from the fields of the state, and changes no state; a read of `CMD` or `CTRL` is a port error
(R90). -/
def Obligations.RegisterReadsAnswer : Prop :=
  ∀ (s : State) (r : ScalarReg) (rest : List HostEvent), s.inbox = registerRead r :: rest →
    (∀ w, registerValue s r = some w → step s = .next (replied s rest (.data w))) ∧
    (r = .cmd ∨ r = .ctrl → ∃ c, step s = .next (replied s rest (.portError c)))

/-- A write of a parameter register stores the word: it reads back, and every other register and every buffer is
as before (20_memory.md R85). -/
def Obligations.ParameterWritesReadBack : Prop :=
  ∀ (s : State) (r : ScalarReg) (w : Word) (rest : List HostEvent),
    r ∈ parameterRegs → s.inbox = registerWrite r w :: rest →
      ∃ t, step s = .next t ∧ registerValue t r = some w ∧
        (∀ r', r' ≠ r → registerValue t r' = registerValue s r') ∧
        t.mem = s.mem ∧ t.fr = s.fr ∧ t.inst = s.inst ∧ t.draws = s.draws ∧
        t.inbox = rest ∧ t.reply = some .ack

/-- A write of a read-only register is a port error and changes nothing (20_memory.md R90). The cause the reply
carries is the model's choice (entry 19), so none is named. -/
def Obligations.ReadOnlyWritesAreRefused : Prop :=
  ∀ (s : State) (r : ScalarReg) (w : Word) (rest : List HostEvent),
    r ∈ readOnlyRegs → s.inbox = registerWrite r w :: rest →
      ∃ c, step s = .next (replied s rest (.portError c))

/-- 10_state.md R49 (and R50 for `SYMLEN`): a length up to `VLMAX` is stored and no element changes; above it the
write is a port error and changes nothing. The cause the reply carries is the model's choice (entry 19), so
none is named. -/
def Obligations.LengthRegisterWrites : Prop :=
  ∀ (s : State) (i : VReg) (w : Word) (rest : List HostEvent),
    (s.inbox = registerWrite (.vl i) w :: rest →
      (w.toNat ≤ s.inst.vlmax → step s = .next
        { s with
          mem := { s.mem with v := s.mem.v.set i.val { s.vreg i with len := w.toNat } }
          inbox := rest
          reply := some .ack }) ∧
      (s.inst.vlmax < w.toNat → ∃ c, step s = .next (replied s rest (.portError c)))) ∧
    (s.inbox = registerWrite .symlen w :: rest →
      (w.toNat ≤ s.inst.vlmax → step s = .next
        { s with
          mem := { s.mem with sym := { s.mem.sym with len := w.toNat } }
          inbox := rest
          reply := some .ack }) ∧
      (s.inst.vlmax < w.toNat → ∃ c, step s = .next (replied s rest (.portError c))))

/-- A write of element `k` of a vector window keeps the word in that element, whether `k` is below the length or
not, leaves every other element as it was, below the length and beyond it, and changes no length and no other
buffer or register (20_memory.md R82, R86). -/
def Obligations.VectorWindowWrites : Prop :=
  ∀ (s : State) (i : VReg) (k : Nat) (w : Word) (rest : List HostEvent),
    s.inst.vlmax ≤ 2 ^ 22 → k < s.inst.vlmax →
    s.inbox = .write (BitVec.ofNat 32 (0x10000000 + 0x01000000 * i.val + 4 * k)) 4 w :: rest →
      ∃ t, step s = .next t ∧ t.vlength i = s.vlength i ∧
        peekCells (t.vreg i).cells k = some w ∧
        (∀ j, j ≠ k → peekCells (t.vreg i).cells j = peekCells (s.vreg i).cells j) ∧
        (k < s.vlength i → (t.vreg i).element? k = some w) ∧
        (∀ j, j ≠ k → (t.vreg i).element? j = (s.vreg i).element? j) ∧
        (∀ j, j ≠ i → t.vreg j = s.vreg j) ∧
        t = { s with
          mem := { s.mem with v := t.mem.v }
          inbox := rest
          reply := some .ack }

/-- The same of the symbol window; a write of the audio window is a port error and changes nothing (20_memory.md
R87, R88, R90). The cause the reply carries is the model's choice (entry 19), so none is named. -/
def Obligations.SymbolAndAudioWindowWrites : Prop :=
  ∀ (s : State) (k : Nat) (w : Word) (rest : List HostEvent),
    s.inst.vlmax ≤ 2 ^ 22 → k < s.inst.vlmax →
    (s.inbox = .write (BitVec.ofNat 32 (0x20000000 + 4 * k)) 4 w :: rest →
      ∃ t, step s = .next t ∧ t.mem.sym.len = s.mem.sym.len ∧
        peekCells t.mem.sym.cells k = some w ∧
        (∀ j, j ≠ k → peekCells t.mem.sym.cells j = peekCells s.mem.sym.cells j) ∧
        (k < s.mem.sym.len → t.mem.sym.element? k = some w) ∧
        (∀ j, j ≠ k → t.mem.sym.element? j = s.mem.sym.element? j) ∧
        t = { s with
          mem := { s.mem with sym := t.mem.sym }
          inbox := rest
          reply := some .ack }) ∧
    (s.inbox = .write (BitVec.ofNat 32 (0x30000000 + 4 * k)) 4 w :: rest →
      ∃ c, step s = .next (replied s rest (.portError c)))

/-- A read of a window element answers its value, sign-extended for the audio buffer, or a draw where it has none,
and changes nothing else (20_memory.md R86, R87, R88). The count of draws is the model's own field (entries 7
and 9). -/
def Obligations.WindowReadsAnswer : Prop :=
  ∀ (s : State) (i : VReg) (k : Nat) (rest : List HostEvent),
    s.inst.vlmax ≤ 2 ^ 22 → k < s.inst.vlmax →
    (s.inbox = .read (BitVec.ofNat 32 (0x10000000 + 0x01000000 * i.val + 4 * k)) 4 :: rest →
      step s = .next
        (match (s.vreg i).element? k with
         | some w => replied s rest (.data w)
         | none => { replied s rest (.data (Config.draw s.draws)) with draws := s.draws + 1 })) ∧
    (s.inbox = .read (BitVec.ofNat 32 (0x20000000 + 4 * k)) 4 :: rest →
      step s = .next
        (match s.mem.sym.element? k with
         | some w => replied s rest (.data w)
         | none => { replied s rest (.data (Config.draw s.draws)) with draws := s.draws + 1 })) ∧
    (s.inbox = .read (BitVec.ofNat 32 (0x30000000 + 4 * k)) 4 :: rest →
      step s = .next
        (match s.mem.aud.element? k with
         | some a => replied s rest (.data (a.signExtend 32))
         | none => { replied s rest (.data (Config.draw s.draws)) with draws := s.draws + 1 }))

/-- A transaction answered by a port error has changed no state of the block (20_memory.md R90). The response is the
model's own field (entry 3). -/
def Obligations.PortErrorsChangeNothing : Prop :=
  ∀ (s t : State) (e : HostEvent) (rest : List HostEvent) (c : PortError),
    s.inbox = e :: rest → step s = .next t → t.reply = some (.portError c) →
      t = replied s rest (.portError c)

/-- Transactions that are not 32 bits wide, not aligned, at an address the map has no location for, or at an
element beyond `VLMAX` are port errors (20_memory.md R81, R82, R83, R90). Addresses are those of the block's port
(entry 4). -/
def Obligations.UnmappedTransactionsAreRefused : Prop :=
  ∀ (s : State) (addr w : Word) (size : Nat) (rest : List HostEvent),
    (size ≠ 4 ∨ addr.toNat % 4 ≠ 0 ∨
      (0x24 ≤ addr.toNat ∧ addr.toNat < 0x40) ∨ (0x74 ≤ addr.toNat ∧ addr.toNat < 0x80) ∨
      (0xA8 ≤ addr.toNat ∧ addr.toNat < 0x10000000) ∨
      (0x18000000 ≤ addr.toNat ∧ addr.toNat < 0x20000000) ∨
      (0x21000000 ≤ addr.toNat ∧ addr.toNat < 0x30000000) ∨ 0x31000000 ≤ addr.toNat ∨
      (0x10000000 ≤ addr.toNat ∧ s.inst.vlmax ≤ addr.toNat % 0x01000000 / 4)) →
    (s.inbox = .read addr size :: rest →
      ∃ c, step s = .next (replied s rest (.portError c))) ∧
    (s.inbox = .write addr size w :: rest →
      ∃ c, step s = .next (replied s rest (.portError c)))

/-- The map sits at `HOST_BASE`: a host address in the 2^30 bytes above it names the offset, and one outside them
names nothing (20_memory.md R82; entry 4). -/
def Obligations.HostBasePlacesMap : Prop :=
  ∀ (inst : Params), Params.valid inst = true →
    (∀ off : Nat, off < 2 ^ 30 →
      (portAddress inst (BitVec.ofNat 32 (inst.hostBase.toNat + off))).toNat = off) ∧
    (∀ a : Word, a.toNat < inst.hostBase.toNat ∨ inst.hostBase.toNat + 2 ^ 30 ≤ a.toNat →
      locate (portAddress inst a).toNat = none)

/-! ### The fault state and the invariant -/

/-- Once faulted, only a reset changes the fault record or leaves the state: every other event keeps the first
fault (60_exceptions.md R326, R327). -/
def Obligations.OnlyResetLeavesFaultState : Prop :=
  ∀ (s t : State), s.fr.faulted = true → step s = .next t → t.fr ≠ s.fr →
    ∃ e rest, s.inbox = e :: rest ∧ isReset e ∧ t.fr.faulted = false ∧
      sameBlock t { State.reset with inst := s.inst }

/-- `fault_o` equals `STATUS.FAULTED`, which only a command's fault entry sets (60_exceptions.md R328): a step that
raises it was a `CMD` write, and `FCMD` holds its word. -/
def Obligations.FaultOutRaisedByCommandOnly : Prop :=
  ∀ (s t : State), faultOut s = false → step s = .next t → faultOut t = true →
    readScalar t .status = some 1#32 ∧
    ∃ w rest, s.inbox = .write 0x004#32 4 w :: rest ∧ readScalar t .fcmd = some w ∧
      t = { s with inbox := rest, reply := some .ack, fr := t.fr }

/-- The invariant is kept by every step, from every state that has it. -/
def Obligations.StepKeepsInvariant : Prop :=
  ∀ s t : State, BlockInvariant s → step s = .next t → BlockInvariant t

/-! ### Numerics -/

/-- 00_scope.md R21: the four named properties of sine and cosine, for every argument. -/
def Obligations.TrigonometryHasNamedProperties : Prop :=
  F32.sin 0x00000000#32 = 0x00000000#32 ∧
  F32.cos 0x00000000#32 = 0x3F800000#32 ∧
  ∀ x : Word,
    (F32.isFinite x = true →
      F32.isFinite (F32.sin x) = true ∧ F32.scaledMag (F32.sin x) ≤ 2 ^ 149 ∧
      F32.isFinite (F32.cos x) = true ∧ F32.scaledMag (F32.cos x) ≤ 2 ^ 149) ∧
    (F32.isFinite x = false →
      F32.isNaN (F32.sin x) = true ∧ F32.isNaN (F32.cos x) = true)

/-- Counts up to 2^24 convert exactly (00_scope.md R20). -/
def Obligations.SmallNaturalsConvertExactly : Prop :=
  ∀ n : Nat, n ≤ 2 ^ 24 →
    F32.isFinite (F32.ofNat n) = true ∧ F32.scaled (F32.ofNat n) = 2 ^ 149 * n

/-- `fl` rounds to nearest, ties to even: a finite result is at least as near the exact ratio as any finite pattern;
if a finite pattern of another magnitude is equally near, the result's fraction is even; and an overflow to
infinity happens only from half a unit above the largest finite value on (00_scope.md R11, R19). -/
def Obligations.RoundingPicksNearest : Prop :=
  ∀ n d : Nat, 0 < d →
    (F32.flMag n d < F32.infMagnitude → ∀ c : Word, F32.isFinite c = true →
      ((F32.scaledMag (BitVec.ofNat 32 (F32.flMag n d)) * d : Nat) - (n : Int)).natAbs ≤
        ((F32.scaledMag c * d : Nat) - (n : Int)).natAbs ∧
      (F32.magnitude c ≠ F32.flMag n d →
        ((F32.scaledMag (BitVec.ofNat 32 (F32.flMag n d)) * d : Nat) - (n : Int)).natAbs =
          ((F32.scaledMag c * d : Nat) - (n : Int)).natAbs →
        F32.frac (BitVec.ofNat 32 (F32.flMag n d)) % 2 = 0)) ∧
    (F32.flMag n d = F32.infMagnitude ↔ (2 ^ 25 - 1) * 2 ^ 252 * d ≤ n)

/-- IEEE arithmetic on finite patterns rounds the exact result, with the signs R19 gives: the exclusive or of the
operand signs for a product or quotient, +0 for an exact zero sum unless both addends are -0
(00_scope.md R19). -/
def Obligations.FiniteArithmeticRounds : Prop :=
  ∀ a b : Word, F32.isFinite a = true → F32.isFinite b = true →
    (F32.scaled a + F32.scaled b ≠ 0 →
      F32.sign (F32.add a b) = decide (F32.scaled a + F32.scaled b < 0) ∧
      F32.magnitude (F32.add a b) = F32.flMag (F32.scaled a + F32.scaled b).natAbs 1) ∧
    (F32.scaled a + F32.scaled b = 0 →
      F32.add a b = if F32.sign a = true ∧ F32.sign b = true then 0x80000000#32 else 0x00000000#32) ∧
    F32.sub a b = F32.add a (F32.neg b) ∧
    F32.sign (F32.mul a b) = (F32.sign a != F32.sign b) ∧
    F32.magnitude (F32.mul a b) = F32.flMag (F32.scaledMag a * F32.scaledMag b) (2 ^ 149) ∧
    (F32.isZero b = false →
      F32.sign (F32.div a b) = (F32.sign a != F32.sign b) ∧
      F32.magnitude (F32.div a b) = F32.flMag (2 ^ 149 * F32.scaledMag a) (F32.scaledMag b)) ∧
    (F32.isZero b = true → F32.isZero a = false →
      F32.div a b = if F32.sign a = F32.sign b then 0x7F800000#32 else 0xFF800000#32)

/-- The operations that give a NaN: a NaN operand, and the invalid operand pairs of R19 (00_scope.md R19, from
general knowledge by its own mark; entry 20). -/
def Obligations.InvalidOperationsGiveNaN : Prop :=
  ∀ a b : Word,
    (F32.isNaN a = true ∨ F32.isNaN b = true →
      F32.isNaN (F32.add a b) = true ∧ F32.isNaN (F32.sub a b) = true ∧
      F32.isNaN (F32.mul a b) = true ∧ F32.isNaN (F32.div a b) = true) ∧
    (F32.isZero a = true → F32.isZero b = true → F32.isNaN (F32.div a b) = true) ∧
    (F32.isZero a = true → F32.isInf b = true →
      F32.isNaN (F32.mul a b) = true ∧ F32.isNaN (F32.mul b a) = true) ∧
    (F32.isInf a = true → F32.isInf b = true →
      F32.isNaN (F32.div a b) = true ∧
      (F32.sign a ≠ F32.sign b → F32.isNaN (F32.add a b) = true))
end

