-- ==== Sys2Proof/Laws/State.lean ====
section
/-! SUPPORT. What each named update of the state leaves in each field: one lemma per field per update. -/

namespace Sys2Proof.Machine

variable (s : State)

/-! ### `setV` -/

@[simp] theorem State.setV_p (i : VReg) (b : Buffer Word) : (s.setV i b).p = s.p := rfl
@[simp] theorem State.setV_fr (i : VReg) (b : Buffer Word) : (s.setV i b).fr = s.fr := rfl
@[simp] theorem State.setV_cmdcnt (i : VReg) (b : Buffer Word) : (s.setV i b).cmdcnt = s.cmdcnt := rfl
@[simp] theorem State.setV_prsgS (i : VReg) (b : Buffer Word) : (s.setV i b).prsgS = s.prsgS := rfl
@[simp] theorem State.setV_mem (i : VReg) (b : Buffer Word) :
    (s.setV i b).mem = { s.mem with v := s.mem.v.set i.val b } := rfl
@[simp] theorem State.setV_inst (i : VReg) (b : Buffer Word) : (s.setV i b).inst = s.inst := rfl
@[simp] theorem State.setV_inbox (i : VReg) (b : Buffer Word) : (s.setV i b).inbox = s.inbox := rfl
@[simp] theorem State.setV_reply (i : VReg) (b : Buffer Word) : (s.setV i b).reply = s.reply := rfl
@[simp] theorem State.setV_draws (i : VReg) (b : Buffer Word) : (s.setV i b).draws = s.draws := rfl

/-! ### `setSym` -/

@[simp] theorem State.setSym_p (b : Buffer Word) : (s.setSym b).p = s.p := rfl
@[simp] theorem State.setSym_fr (b : Buffer Word) : (s.setSym b).fr = s.fr := rfl
@[simp] theorem State.setSym_cmdcnt (b : Buffer Word) : (s.setSym b).cmdcnt = s.cmdcnt := rfl
@[simp] theorem State.setSym_prsgS (b : Buffer Word) : (s.setSym b).prsgS = s.prsgS := rfl
@[simp] theorem State.setSym_mem (b : Buffer Word) : (s.setSym b).mem = { s.mem with sym := b } := rfl
@[simp] theorem State.setSym_inst (b : Buffer Word) : (s.setSym b).inst = s.inst := rfl
@[simp] theorem State.setSym_inbox (b : Buffer Word) : (s.setSym b).inbox = s.inbox := rfl
@[simp] theorem State.setSym_reply (b : Buffer Word) : (s.setSym b).reply = s.reply := rfl
@[simp] theorem State.setSym_draws (b : Buffer Word) : (s.setSym b).draws = s.draws := rfl

/-! ### `setAud` -/

@[simp] theorem State.setAud_p (b : Buffer Sample) : (s.setAud b).p = s.p := rfl
@[simp] theorem State.setAud_fr (b : Buffer Sample) : (s.setAud b).fr = s.fr := rfl
@[simp] theorem State.setAud_cmdcnt (b : Buffer Sample) : (s.setAud b).cmdcnt = s.cmdcnt := rfl
@[simp] theorem State.setAud_prsgS (b : Buffer Sample) : (s.setAud b).prsgS = s.prsgS := rfl
@[simp] theorem State.setAud_mem (b : Buffer Sample) : (s.setAud b).mem = { s.mem with aud := b } := rfl
@[simp] theorem State.setAud_inst (b : Buffer Sample) : (s.setAud b).inst = s.inst := rfl
@[simp] theorem State.setAud_inbox (b : Buffer Sample) : (s.setAud b).inbox = s.inbox := rfl
@[simp] theorem State.setAud_reply (b : Buffer Sample) : (s.setAud b).reply = s.reply := rfl
@[simp] theorem State.setAud_draws (b : Buffer Sample) : (s.setAud b).draws = s.draws := rfl

/-! ### `setPrsgS` -/

@[simp] theorem State.setPrsgS_p (w : Word) : (s.setPrsgS w).p = s.p := rfl
@[simp] theorem State.setPrsgS_fr (w : Word) : (s.setPrsgS w).fr = s.fr := rfl
@[simp] theorem State.setPrsgS_cmdcnt (w : Word) : (s.setPrsgS w).cmdcnt = s.cmdcnt := rfl
@[simp] theorem State.setPrsgS_prsgS (w : Word) : (s.setPrsgS w).prsgS = w := rfl
@[simp] theorem State.setPrsgS_mem (w : Word) : (s.setPrsgS w).mem = s.mem := rfl
@[simp] theorem State.setPrsgS_inst (w : Word) : (s.setPrsgS w).inst = s.inst := rfl
@[simp] theorem State.setPrsgS_inbox (w : Word) : (s.setPrsgS w).inbox = s.inbox := rfl
@[simp] theorem State.setPrsgS_reply (w : Word) : (s.setPrsgS w).reply = s.reply := rfl
@[simp] theorem State.setPrsgS_draws (w : Word) : (s.setPrsgS w).draws = s.draws := rfl

/-! ### `takeFault` -/

@[simp] theorem State.takeFault_p (w : Word) (r : Raise) : (s.takeFault w r).p = s.p := rfl
@[simp] theorem State.takeFault_fr (w : Word) (r : Raise) :
    (s.takeFault w r).fr = 
      { faulted := true, fault := faultWord r.aux r.code, finfo0 := r.info0, finfo1 := r.info1,
        fcmd := w } := rfl
@[simp] theorem State.takeFault_cmdcnt (w : Word) (r : Raise) :
    (s.takeFault w r).cmdcnt = s.cmdcnt := rfl
@[simp] theorem State.takeFault_prsgS (w : Word) (r : Raise) : (s.takeFault w r).prsgS = s.prsgS := rfl
@[simp] theorem State.takeFault_mem (w : Word) (r : Raise) : (s.takeFault w r).mem = s.mem := rfl
@[simp] theorem State.takeFault_inst (w : Word) (r : Raise) : (s.takeFault w r).inst = s.inst := rfl
@[simp] theorem State.takeFault_inbox (w : Word) (r : Raise) : (s.takeFault w r).inbox = s.inbox := rfl
@[simp] theorem State.takeFault_reply (w : Word) (r : Raise) : (s.takeFault w r).reply = s.reply := rfl
@[simp] theorem State.takeFault_draws (w : Word) (r : Raise) : (s.takeFault w r).draws = s.draws := rfl

/-! ### `applyReset` -/

@[simp] theorem State.applyReset_p : s.applyReset.p = ParamRegs.zero := rfl
@[simp] theorem State.applyReset_fr : s.applyReset.fr = FaultRecord.clear := rfl
@[simp] theorem State.applyReset_cmdcnt : s.applyReset.cmdcnt = 0#32 := rfl
@[simp] theorem State.applyReset_prsgS : s.applyReset.prsgS = 0#32 := rfl
@[simp] theorem State.applyReset_mem : s.applyReset.mem = Memory.empty := rfl
@[simp] theorem State.applyReset_inst : s.applyReset.inst = s.inst := rfl
@[simp] theorem State.applyReset_inbox : s.applyReset.inbox = s.inbox := rfl
@[simp] theorem State.applyReset_reply : s.applyReset.reply = none := rfl
@[simp] theorem State.applyReset_draws : s.applyReset.draws = s.draws := rfl

/-! ### `complete` -/

@[simp] theorem State.complete_p : s.complete.p = s.p := rfl
@[simp] theorem State.complete_fr : s.complete.fr = s.fr := rfl
@[simp] theorem State.complete_cmdcnt : s.complete.cmdcnt = s.cmdcnt + 1#32 := rfl
@[simp] theorem State.complete_prsgS : s.complete.prsgS = s.prsgS := rfl
@[simp] theorem State.complete_mem : s.complete.mem = s.mem := rfl
@[simp] theorem State.complete_inst : s.complete.inst = s.inst := rfl
@[simp] theorem State.complete_inbox : s.complete.inbox = s.inbox := rfl
@[simp] theorem State.complete_reply : s.complete.reply = s.reply := rfl
@[simp] theorem State.complete_draws : s.complete.draws = s.draws := rfl

/-! ### `respond` -/

@[simp] theorem State.respond_p (r : Reply) : (s.respond r).p = s.p := rfl
@[simp] theorem State.respond_fr (r : Reply) : (s.respond r).fr = s.fr := rfl
@[simp] theorem State.respond_cmdcnt (r : Reply) : (s.respond r).cmdcnt = s.cmdcnt := rfl
@[simp] theorem State.respond_prsgS (r : Reply) : (s.respond r).prsgS = s.prsgS := rfl
@[simp] theorem State.respond_mem (r : Reply) : (s.respond r).mem = s.mem := rfl
@[simp] theorem State.respond_inst (r : Reply) : (s.respond r).inst = s.inst := rfl
@[simp] theorem State.respond_inbox (r : Reply) : (s.respond r).inbox = s.inbox := rfl
@[simp] theorem State.respond_reply (r : Reply) : (s.respond r).reply = some r := rfl
@[simp] theorem State.respond_draws (r : Reply) : (s.respond r).draws = s.draws := rfl

/-! ### `answerDraw` -/

@[simp] theorem State.answerDraw_p : s.answerDraw.p = s.p := rfl
@[simp] theorem State.answerDraw_fr : s.answerDraw.fr = s.fr := rfl
@[simp] theorem State.answerDraw_cmdcnt : s.answerDraw.cmdcnt = s.cmdcnt := rfl
@[simp] theorem State.answerDraw_prsgS : s.answerDraw.prsgS = s.prsgS := rfl
@[simp] theorem State.answerDraw_mem : s.answerDraw.mem = s.mem := rfl
@[simp] theorem State.answerDraw_inst : s.answerDraw.inst = s.inst := rfl
@[simp] theorem State.answerDraw_inbox : s.answerDraw.inbox = s.inbox := rfl
@[simp] theorem State.answerDraw_reply : s.answerDraw.reply = some (.data (Config.draw s.draws)) := rfl
@[simp] theorem State.answerDraw_draws : s.answerDraw.draws = s.draws + 1 := rfl

/-! ### `setParams` -/

@[simp] theorem State.setParams_p (q : ParamRegs) : (s.setParams q).p = q := rfl
@[simp] theorem State.setParams_fr (q : ParamRegs) : (s.setParams q).fr = s.fr := rfl
@[simp] theorem State.setParams_cmdcnt (q : ParamRegs) : (s.setParams q).cmdcnt = s.cmdcnt := rfl
@[simp] theorem State.setParams_prsgS (q : ParamRegs) : (s.setParams q).prsgS = s.prsgS := rfl
@[simp] theorem State.setParams_mem (q : ParamRegs) : (s.setParams q).mem = s.mem := rfl
@[simp] theorem State.setParams_inst (q : ParamRegs) : (s.setParams q).inst = s.inst := rfl
@[simp] theorem State.setParams_inbox (q : ParamRegs) : (s.setParams q).inbox = s.inbox := rfl
@[simp] theorem State.setParams_reply (q : ParamRegs) : (s.setParams q).reply = s.reply := rfl
@[simp] theorem State.setParams_draws (q : ParamRegs) : (s.setParams q).draws = s.draws := rfl

/-! ### `withInbox` -/

@[simp] theorem State.withInbox_p (rest : List HostEvent) : (s.withInbox rest).p = s.p := rfl
@[simp] theorem State.withInbox_fr (rest : List HostEvent) : (s.withInbox rest).fr = s.fr := rfl
@[simp] theorem State.withInbox_cmdcnt (rest : List HostEvent) :
    (s.withInbox rest).cmdcnt = s.cmdcnt := rfl
@[simp] theorem State.withInbox_prsgS (rest : List HostEvent) : (s.withInbox rest).prsgS = s.prsgS := rfl
@[simp] theorem State.withInbox_mem (rest : List HostEvent) : (s.withInbox rest).mem = s.mem := rfl
@[simp] theorem State.withInbox_inst (rest : List HostEvent) : (s.withInbox rest).inst = s.inst := rfl
@[simp] theorem State.withInbox_inbox (rest : List HostEvent) : (s.withInbox rest).inbox = rest := rfl
@[simp] theorem State.withInbox_reply (rest : List HostEvent) : (s.withInbox rest).reply = s.reply := rfl
@[simp] theorem State.withInbox_draws (rest : List HostEvent) : (s.withInbox rest).draws = s.draws := rfl

/-! ### Vector registers -/

@[simp] theorem State.vreg_setV_self (i : VReg) (b : Buffer Word) : (s.setV i b).vreg i = b := by
  simp [State.vreg, Vector.get_eq_getElem]

theorem State.vreg_setV_ne {i j : VReg} (h : i ≠ j) (b : Buffer Word) :
    (s.setV i b).vreg j = s.vreg j := by
  have : i.val ≠ j.val := fun e => h (Fin.ext e)
  simp [State.vreg, Vector.get_eq_getElem, Vector.getElem_set_ne _ _ this]

@[simp] theorem State.vreg_setSym (b : Buffer Word) (i : VReg) : (s.setSym b).vreg i = s.vreg i := rfl
@[simp] theorem State.vreg_setAud (b : Buffer Sample) (i : VReg) : (s.setAud b).vreg i = s.vreg i := rfl
@[simp] theorem State.vreg_setPrsgS (w : Word) (i : VReg) : (s.setPrsgS w).vreg i = s.vreg i := rfl
@[simp] theorem State.vreg_complete (i : VReg) : s.complete.vreg i = s.vreg i := rfl
@[simp] theorem State.vreg_takeFault (w : Word) (r : Raise) (i : VReg) :
    (s.takeFault w r).vreg i = s.vreg i := rfl
@[simp] theorem State.vreg_respond (r : Reply) (i : VReg) : (s.respond r).vreg i = s.vreg i := rfl
@[simp] theorem State.vreg_withInbox (rest : List HostEvent) (i : VReg) :
    (s.withInbox rest).vreg i = s.vreg i := rfl

end Sys2Proof.Machine
end

