-- ==== Sys2Proof/Laws/Buffer.lean ====
section
/-! SUPPORT. The laws of buffers and of the memory: read after write, what a command's write leaves, and that
every operation keeps the canonical form. -/

namespace Sys2Proof.Machine

variable {α : Type}

/-! ### One element -/

@[simp] theorem peekCells_pokeCells_self (cells : List (Nat × α)) (k : Nat) (x : α) :
    peekCells (pokeCells cells k x) k = some x := by
  induction cells with
  | nil => simp [pokeCells, peekCells]
  | cons c rest ih =>
    obtain ⟨j, y⟩ := c
    unfold pokeCells
    split
    · simp [peekCells]
    · split
      · simp [peekCells]
      · simp [peekCells, *]

theorem peekCells_pokeCells_ne (cells : List (Nat × α)) {k k' : Nat} (h : k' ≠ k) (x : α) :
    peekCells (pokeCells cells k x) k' = peekCells cells k' := by
  induction cells with
  | nil => simp [pokeCells, peekCells, h]
  | cons c rest ih =>
    obtain ⟨j, y⟩ := c
    unfold pokeCells
    split
    · next hkj =>
      by_cases hlt : k' < k
      · simp [peekCells, hlt, Nat.lt_trans hlt hkj]
      · simp [peekCells, hlt, h]
    · split
      · next heq => subst heq; simp [peekCells, h]
      · simp [peekCells, ih]

/-- A host write of an element is what a read of it gives back (20_memory.md R86). -/
@[simp] theorem Buffer.element?_poke_self (b : Buffer α) (k : Nat) (x : α) :
    (b.poke k x).element? k = if k < b.len then some x else none := by
  simp [Buffer.element?, Buffer.poke]

theorem Buffer.element?_poke_ne (b : Buffer α) {k k' : Nat} (h : k' ≠ k) (x : α) :
    (b.poke k x).element? k' = b.element? k' := by
  simp [Buffer.element?, Buffer.poke, peekCells_pokeCells_ne _ h]

/-! ### A whole sequence -/

theorem peekCells_numberFrom (xs : List α) (k i : Nat) :
    peekCells (numberFrom k xs) (k + i) = xs[i]? := by
  induction xs generalizing k i with
  | nil => simp [numberFrom, peekCells]
  | cons x xs ih =>
    cases i with
    | zero => simp [numberFrom, peekCells]
    | succ i =>
      have := ih (k + 1) i
      have e : k + (i + 1) = k + 1 + i := by omega
      simp only [numberFrom, peekCells, e, this]
      simp only [show ¬ (k + 1 + i < k) by omega, show ¬ (k + 1 + i = k) by omega, if_false]
      simp

/-- After `v[i] <- (L, g)` element `k` is `g(k)` below `L` and has no value beyond (10_state.md R48). -/
@[simp] theorem Buffer.element?_ofList (xs : List α) (k : Nat) :
    (Buffer.ofList xs).element? k = xs[k]? := by
  have := peekCells_numberFrom xs 0 k
  simp only [Nat.zero_add] at this
  unfold Buffer.element? Buffer.ofList
  by_cases h : k < xs.length
  · simp [h, this]
  · simp [h]

@[simp] theorem Buffer.len_ofList (xs : List α) : (Buffer.ofList xs).len = xs.length := rfl

theorem allSome_map_some (xs : List α) : allSome (xs.map some) = some xs := by
  induction xs with
  | nil => rfl
  | cons x xs ih => simp [allSome, ih]

theorem allSome_eq_some {l : List (Option α)} {xs : List α} (h : allSome l = some xs) :
    l = xs.map some := by
  induction l generalizing xs with
  | nil => simp [allSome] at h; simp [← h]
  | cons o rest ih =>
    cases o with
    | none => simp [allSome] at h
    | some x =>
      cases hr : allSome rest with
      | none => simp [allSome, hr] at h
      | some ys =>
        have h' : x :: ys = xs := by simpa [allSome, hr] using h
        subst h'
        simp [ih hr]

theorem Buffer.elements_ofList (xs : List α) : (Buffer.ofList xs).elements = xs.map some := by
  apply List.ext_getElem
  · simp [Buffer.elements]
  · intro i h _
    simp only [Buffer.elements, List.length_map, List.length_range, Buffer.len_ofList] at h
    simp [Buffer.elements, h]

@[simp] theorem Buffer.contents_ofList (xs : List α) : (Buffer.ofList xs).contents = some xs := by
  rw [Buffer.contents, Buffer.elements_ofList, allSome_map_some]

theorem Buffer.elements_of_contents {b : Buffer α} {xs : List α} (h : b.contents = some xs) :
    b.elements = xs.map some := allSome_eq_some h

/-- A command that reads a whole operand gets as many elements as the length register says. -/
theorem Buffer.length_of_contents {b : Buffer α} {xs : List α} (h : b.contents = some xs) :
    xs.length = b.len := by
  have := congrArg List.length (Buffer.elements_of_contents h)
  simpa [Buffer.elements] using this.symm

theorem Buffer.element?_of_contents {b : Buffer α} {xs : List α} (h : b.contents = some xs) (k : Nat) :
    b.element? k = xs[k]? := by
  by_cases hk : k < b.len
  · have e := Buffer.elements_of_contents h
    have : b.elements[k]? = (xs.map some)[k]? := by rw [e]
    have hx : k < xs.length := by rw [Buffer.length_of_contents h]; exact hk
    simpa [Buffer.elements, hk, hx] using this
  · have hx : ¬ k < xs.length := by rw [Buffer.length_of_contents h]; exact hk
    rw [List.getElem?_eq_none (Nat.le_of_not_lt hx)]
    simp [Buffer.element?, hk]

/-! ### Canonical form -/

theorem risingFrom_mono {cells : List (Nat × α)} {j k : Nat} (h : risingFrom k cells = true)
    (hjk : j ≤ k) : risingFrom j cells = true := by
  cases cells with
  | nil => rfl
  | cons c rest =>
    simp only [risingFrom, Bool.and_eq_true, decide_eq_true_eq] at h ⊢
    exact ⟨Nat.le_trans hjk h.1, h.2⟩

theorem risingFrom_pokeCells {cells : List (Nat × α)} {m k : Nat} (h : risingFrom m cells = true)
    (hm : m ≤ k) (x : α) : risingFrom m (pokeCells cells k x) = true := by
  induction cells generalizing m with
  | nil => simp [pokeCells, risingFrom, hm]
  | cons c rest ih =>
    obtain ⟨j, y⟩ := c
    have h' := h
    simp only [risingFrom, Bool.and_eq_true, decide_eq_true_eq] at h'
    unfold pokeCells
    split
    · next hkj =>
      simp only [risingFrom, Bool.and_eq_true, decide_eq_true_eq]
      exact ⟨hm, hkj, h'.2⟩
    · split
      · next heq => subst heq; simpa [risingFrom] using h'
      · simp only [risingFrom, Bool.and_eq_true, decide_eq_true_eq]
        exact ⟨h'.1, ih h'.2 (by omega)⟩

theorem allBelow_pokeCells {cells : List (Nat × α)} {cap k : Nat} (h : allBelow cap cells = true)
    (hk : k < cap) (x : α) : allBelow cap (pokeCells cells k x) = true := by
  induction cells with
  | nil => simp [pokeCells, allBelow, hk]
  | cons c rest ih =>
    obtain ⟨j, y⟩ := c
    have h' := h
    simp only [allBelow, Bool.and_eq_true, decide_eq_true_eq] at h'
    unfold pokeCells
    split
    · simp only [allBelow, Bool.and_eq_true, decide_eq_true_eq]; exact ⟨hk, h'⟩
    · split
      · simp only [allBelow, Bool.and_eq_true, decide_eq_true_eq]; exact ⟨hk, h'.2⟩
      · simp only [allBelow, Bool.and_eq_true, decide_eq_true_eq]; exact ⟨h'.1, ih h'.2⟩

theorem risingFrom_numberFrom (xs : List α) (k : Nat) : risingFrom k (numberFrom k xs) = true := by
  induction xs generalizing k with
  | nil => rfl
  | cons x xs ih => simp [numberFrom, risingFrom, ih]

theorem allBelow_numberFrom (xs : List α) {k cap : Nat} (h : k + xs.length ≤ cap) :
    allBelow cap (numberFrom k xs) = true := by
  induction xs generalizing k with
  | nil => rfl
  | cons x xs ih =>
    simp only [List.length_cons] at h
    simp only [numberFrom, allBelow, Bool.and_eq_true, decide_eq_true_eq]
    exact ⟨by omega, ih (by omega)⟩

theorem Buffer.wf_iff {cap : Nat} {b : Buffer α} : b.wf cap = true ↔
    b.len ≤ cap ∧ risingFrom 0 b.cells = true ∧ allBelow cap b.cells = true := by
  simp [Buffer.wf, and_assoc]

theorem Buffer.wf_empty (cap : Nat) : (Buffer.empty : Buffer α).wf cap = true := by
  simp [Buffer.wf_iff, Buffer.empty, risingFrom, allBelow]

theorem Buffer.wf_ofList {cap : Nat} {xs : List α} (h : xs.length ≤ cap) :
    (Buffer.ofList xs).wf cap = true := by
  rw [Buffer.wf_iff]
  exact ⟨h, risingFrom_numberFrom xs 0, allBelow_numberFrom xs (by omega)⟩

theorem Buffer.wf_poke {cap : Nat} {b : Buffer α} (h : b.wf cap = true) {k : Nat} (hk : k < cap)
    (x : α) : (b.poke k x).wf cap = true := by
  rw [Buffer.wf_iff] at h ⊢
  exact ⟨h.1, risingFrom_pokeCells h.2.1 (Nat.zero_le k) x, allBelow_pokeCells h.2.2 hk x⟩

theorem Buffer.wf_setLen {cap : Nat} {b : Buffer α} (h : b.wf cap = true) {n : Nat} (hn : n ≤ cap) :
    (b.setLen n).wf cap = true := by
  rw [Buffer.wf_iff] at h ⊢
  exact ⟨hn, h.2⟩

/-! ### The memory -/

theorem Memory.wf_iff {cap : Nat} {m : Memory} : m.wf cap = true ↔
    (∀ i : Fin 8, (m.v.get i).wf cap = true) ∧ m.sym.wf cap = true ∧ m.aud.wf cap = true := by
  have key : m.v.toList.all (Buffer.wf cap) = true ↔ ∀ i : Fin 8, (m.v.get i).wf cap = true := by
    simp only [List.all_eq_true, Vector.mem_toList_iff, Vector.get_eq_getElem]
    constructor
    · intro h i
      exact h _ (Vector.getElem_mem i.isLt)
    · intro h b hb
      obtain ⟨i, hi, e⟩ := Vector.mem_iff_getElem.mp hb
      rw [← e]
      exact h ⟨i, hi⟩
  simp only [Memory.wf, Bool.and_eq_true, key, and_assoc]

theorem Memory.wf_empty (cap : Nat) : Memory.empty.wf cap = true := by
  rw [Memory.wf_iff]
  refine ⟨fun i => ?_, Buffer.wf_empty cap, Buffer.wf_empty cap⟩
  simp [Memory.empty, Vector.get_eq_getElem, Buffer.wf_empty]

/-- Reset leaves the memory in canonical form. -/
theorem reset_memory_wf : State.reset.mem.wf State.reset.inst.vlmax = true := Memory.wf_empty _

theorem State.wf_vreg {s : State} {cap : Nat} (h : s.mem.wf cap = true) (i : VReg) :
    (s.vreg i).wf cap = true := (Memory.wf_iff.mp h).1 i

theorem State.wf_setV {s : State} {cap : Nat} (h : s.mem.wf cap = true) (i : VReg)
    {b : Buffer Word} (hb : b.wf cap = true) : (s.setV i b).mem.wf cap = true := by
  have h' := Memory.wf_iff.mp h
  rw [Memory.wf_iff]
  refine ⟨fun j => ?_, h'.2.1, h'.2.2⟩
  change ((s.setV i b).vreg j).wf cap = true
  by_cases e : i = j
  · subst e; rw [State.vreg_setV_self]; exact hb
  · rw [State.vreg_setV_ne s e]; exact h'.1 j

theorem State.wf_setSym {s : State} {cap : Nat} (h : s.mem.wf cap = true) {b : Buffer Word}
    (hb : b.wf cap = true) : (s.setSym b).mem.wf cap = true := by
  have h' := Memory.wf_iff.mp h
  exact Memory.wf_iff.mpr ⟨h'.1, hb, h'.2.2⟩

theorem State.wf_setAud {s : State} {cap : Nat} (h : s.mem.wf cap = true) {b : Buffer Sample}
    (hb : b.wf cap = true) : (s.setAud b).mem.wf cap = true := by
  have h' := Memory.wf_iff.mp h
  exact Memory.wf_iff.mpr ⟨h'.1, h'.2.1, hb⟩

theorem State.wf_source_length {s : State} {cap : Nat} (h : s.mem.wf cap = true) {i : VReg}
    {xs : List Word} (hx : s.source i = some xs) : xs.length ≤ cap := by
  have := (Buffer.wf_iff.mp (State.wf_vreg h i)).1
  rw [Buffer.length_of_contents hx]
  exact this

end Sys2Proof.Machine
end

