-- ==== Sys2Proof/Laws/Command.lean ====
section
/-! SUPPORT. What a command can do: the cases of the one shared operation every meaning is, and of `exec`. -/

namespace Sys2Proof.Machine

variable {α : Type} {i : Instr} {s t : State} {check : Option Raise} {operands : Option α}
  {body : α → Except Raise State}

/-- A fault found before the elements are read: fault entry, whatever the elements are. -/
theorem runCommand_check (r : Raise) :
    runCommand i s (some r) operands body = .next (s.takeFault (encode i) r) := by
  cases operands <;> rfl

/-- No fault found, every element has a value: what the body gives. -/
theorem runCommand_body (xs : α) :
    runCommand i s none (some xs) body = .next (s.settle i (body xs)) := rfl

/-- No fault found, an element without a value: refused (10_state.md R48). -/
theorem runCommand_unwritten :
    runCommand i s none (none : Option α) body = .refused .unwrittenElement := rfl

/-- Everything a command that answers a next state can have done: raised a fault with nothing else written
(60_exceptions.md R324), or completed with what its body gives. -/
theorem runCommand_next (h : runCommand i s check operands body = .next t) :
    (∃ r, t = s.takeFault (encode i) r ∧ (check = some r ∨ ∃ xs, operands = some xs ∧ body xs = .error r)) ∨
    (∃ xs u, check = none ∧ operands = some xs ∧ body xs = .ok u ∧ t = u.complete) := by
  cases check with
  | some r =>
    rw [runCommand_check] at h
    cases h
    exact .inl ⟨r, rfl, .inl rfl⟩
  | none =>
    cases operands with
    | none => simp [runCommand_unwritten] at h
    | some xs =>
      rw [runCommand_body] at h
      injection h with h
      cases hb : body xs with
      | error r => exact .inl ⟨r, by rw [← h, hb]; rfl, .inr ⟨xs, rfl, hb⟩⟩
      | ok u => exact .inr ⟨xs, u, rfl, rfl, hb, by rw [← h, hb]; rfl⟩

/-- A command never stops with a machine fault, and refuses for one reason only. -/
theorem runCommand_refused {r : Refusal} (h : runCommand i s check operands body = .refused r) :
    r = .unwrittenElement ∧ check = none ∧ operands = none := by
  cases check with
  | some r => rw [runCommand_check] at h; cases h
  | none =>
    cases operands with
    | none => rw [runCommand_unwritten] at h; cases h; exact ⟨rfl, rfl, rfl⟩
    | some xs => rw [runCommand_body] at h; cases h

/-! ### `firstRaise` -/

@[simp] theorem firstRaise_nil : firstRaise [] = none := rfl

@[simp] theorem firstRaise_cons_true (r : Raise) (rest : List (Bool × Raise)) :
    firstRaise ((true, r) :: rest) = some r := rfl

@[simp] theorem firstRaise_cons_false (r : Raise) (rest : List (Bool × Raise)) :
    firstRaise ((false, r) :: rest) = firstRaise rest := rfl

theorem firstRaise_eq_some {l : List (Bool × Raise)} {r : Raise} (h : firstRaise l = some r) :
    ∃ c, c ∈ l ∧ c.1 = true ∧ c.2 = r := by
  induction l with
  | nil => cases h
  | cons c l ih =>
    obtain ⟨b, q⟩ := c
    cases b with
    | false =>
      obtain ⟨c, hc, e⟩ := ih h
      exact ⟨c, List.mem_cons_of_mem _ hc, e⟩
    | true => exact ⟨(true, q), List.mem_cons_self, rfl, Option.some.inj h⟩

/-- No fault is raised exactly when no check finds one. -/
theorem firstRaise_eq_none {l : List (Bool × Raise)} :
    firstRaise l = none ↔ ∀ c, c ∈ l → c.1 = false := by
  induction l with
  | nil => simp
  | cons c l ih =>
    obtain ⟨b, q⟩ := c
    cases b <;> simp [ih]

/-! ### Operands -/

theorem State.source2_eq_some {j k : VReg} {xs ys : List Word} :
    s.source2 j k = some (xs, ys) ↔ s.source j = some xs ∧ s.source k = some ys := by
  unfold State.source2
  cases s.source j <;> cases s.source k <;> simp

theorem State.vlength_of_source {j : VReg} {xs : List Word} (h : s.source j = some xs) :
    s.vlength j = xs.length := (Buffer.length_of_contents h).symm

theorem lengthCheck_eq_none {j k : VReg} (h : s.vlength j = s.vlength k) : lengthCheck s j k = none := by
  simp [lengthCheck, h]

theorem lengthCheck_eq_some {j k : VReg} (h : s.vlength j ≠ s.vlength k) :
    lengthCheck s j k =
      some (Raise.plain .lenMismatch (sat32 (s.vlength j)) (sat32 (s.vlength k))) := by
  have : (s.vlength j != s.vlength k) = true := by simpa using h
  rw [lengthCheck, this, firstRaise_cons_true]

/-! ### `exec` -/

/-- What every command leaves alone, whether it completes or faults: the parameter registers (10_state.md R31),
the instance, and the model's own fields. -/
structure KeepsOutside (s t : State) : Prop where
  p     : t.p = s.p
  inst  : t.inst = s.inst
  inbox : t.inbox = s.inbox
  reply : t.reply = s.reply
  draws : t.draws = s.draws

/-- Every command that answers a next state raised a fault and wrote nothing else, or completed: a state `u`
with the same fault record and counter, counted. -/
theorem exec_next (h : exec i s = .next t) :
    (∃ r, t = s.takeFault (encode i) r) ∨
    (∃ u, t = u.complete ∧ KeepsOutside s u ∧ u.fr = s.fr ∧ u.cmdcnt = s.cmdcnt) := by
  cases i with
  | gen =>
    simp only [exec, execGen] at h
    rcases runCommand_next h with ⟨r, e, _⟩ | ⟨xs, u, _, _, hb, e⟩
    · exact .inl ⟨r, e⟩
    · cases hb; exact .inr ⟨_, e, ⟨rfl, rfl, rfl, rfl, rfl⟩, rfl, rfl⟩
  | ksyn ra n =>
    simp only [exec, execKsyn] at h
    rcases runCommand_next h with ⟨r, e, _⟩ | ⟨xs, u, _, _, hb, e⟩
    · exact .inl ⟨r, e⟩
    · refine .inr ⟨u, e, ?_⟩
      split at hb
      · cases hb
      · cases hb; exact ⟨⟨rfl, rfl, rfl, rfl, rfl⟩, rfl, rfl⟩
  | map ra rb o =>
    rcases runCommand_next h with ⟨r, e, _⟩ | ⟨xs, u, _, _, hb, e⟩
    · exact .inl ⟨r, e⟩
    · cases hb; exact .inr ⟨_, e, ⟨rfl, rfl, rfl, rfl, rfl⟩, rfl, rfl⟩
  | stretch ra rb hf =>
    rcases runCommand_next h with ⟨r, e, _⟩ | ⟨xs, u, _, _, hb, e⟩
    · exact .inl ⟨r, e⟩
    · cases hb; exact .inr ⟨_, e, ⟨rfl, rfl, rfl, rfl, rfl⟩, rfl, rfl⟩
  | conv ra rb rc =>
    rcases runCommand_next h with ⟨r, e, _⟩ | ⟨xs, u, _, _, hb, e⟩
    · exact .inl ⟨r, e⟩
    · cases hb; exact .inr ⟨_, e, ⟨rfl, rfl, rfl, rfl, rfl⟩, rfl, rfl⟩
  | vmul ra rb =>
    rcases runCommand_next h with ⟨r, e, _⟩ | ⟨xs, u, _, _, hb, e⟩
    · exact .inl ⟨r, e⟩
    · cases hb; exact .inr ⟨_, e, ⟨rfl, rfl, rfl, rfl, rfl⟩, rfl, rfl⟩
  | mix ra rb rc =>
    rcases runCommand_next h with ⟨r, e, _⟩ | ⟨xs, u, _, _, hb, e⟩
    · exact .inl ⟨r, e⟩
    · cases hb; exact .inr ⟨_, e, ⟨rfl, rfl, rfl, rfl, rfl⟩, rfl, rfl⟩
  | vacc ra rb init =>
    rcases runCommand_next h with ⟨r, e, _⟩ | ⟨xs, u, _, _, hb, e⟩
    · exact .inl ⟨r, e⟩
    · cases hb; exact .inr ⟨_, e, ⟨rfl, rfl, rfl, rfl, rfl⟩, rfl, rfl⟩
  | quant rb =>
    simp only [exec, execQuant] at h
    rcases runCommand_next h with ⟨r, e, _⟩ | ⟨xs, u, _, _, hb, e⟩
    · exact .inl ⟨r, e⟩
    · refine .inr ⟨u, e, ?_⟩
      split at hb
      · cases hb
      · cases hb; exact ⟨⟨rfl, rfl, rfl, rfl, rfl⟩, rfl, rfl⟩

/-! ### `step` -/

theorem step_idle (h : s.inbox = []) : step s = .next s := by simp [step, h]

theorem step_done {e : HostEvent} {rest : List HostEvent} {u : State} (h : s.inbox = e :: rest)
    (hs : serve (s.withInbox rest) e = .done u) : step s = .next u := by
  simp [step, h, hs]

theorem step_run {e : HostEvent} {rest : List HostEvent} (h : s.inbox = e :: rest)
    (hs : serve (s.withInbox rest) e = .run i) : step s = acknowledge (exec i (s.withInbox rest)) := by
  simp [step, h, hs]

theorem acknowledge_next {o : Host.Outcome State Fault Refusal} (h : acknowledge o = .next t) :
    ∃ u, o = .next u ∧ t = u.respond .ack := by
  cases o with
  | next u => cases h; exact ⟨u, rfl, rfl⟩
  | fault f => cases h
  | refused r => cases h

/-- Everything a step that answers a next state can have done. -/
theorem step_next (h : step s = .next t) :
    (s.inbox = [] ∧ t = s) ∨
    (∃ e rest, s.inbox = e :: rest ∧ serve (s.withInbox rest) e = .done t) ∨
    (∃ e rest i u, s.inbox = e :: rest ∧ serve (s.withInbox rest) e = .run i ∧
      exec i (s.withInbox rest) = .next u ∧ t = u.respond .ack) := by
  cases hi : s.inbox with
  | nil => rw [step_idle hi] at h; cases h; exact .inl ⟨rfl, rfl⟩
  | cons e rest =>
    cases hs : serve (s.withInbox rest) e with
    | done u => rw [step_done hi hs] at h; cases h; exact .inr (.inl ⟨e, rest, rfl, hs⟩)
    | run i =>
      rw [step_run hi hs] at h
      obtain ⟨u, hu, e'⟩ := acknowledge_next h
      exact .inr (.inr ⟨e, rest, i, u, rfl, hs, hu, e'⟩)

end Sys2Proof.Machine
end

