-- ==== Sys2Proof/Laws/Decode.lean ====
section
/-! SUPPORT. The laws of the command word: its fields, and what the field checks answer (spec 30_encoding.md R110,
R113, R114). -/

namespace Sys2Proof

/-! ### The fields of a word of format C (R110) -/

section Fields

variable {op ra rb rc : Nat} (hop : op < 256) (ha : ra < 16) (hb : rb < 16) (hc : rc < 16) (fl : Bool)
include hop ha hb hc

theorem commandWord_toNat : (commandWord op ra rb rc fl).toNat =
    2 ^ 24 * op + 2 ^ 20 * ra + 2 ^ 16 * rb + 2 ^ 12 * rc + fl.toNat := by
  have hfl : fl.toNat < 2 := Bool.toNat_lt fl
  rw [commandWord, BitVec.toNat_ofNat]
  omega

theorem bits_op : bits (commandWord op ra rb rc fl) 31 24 = op := by
  have hfl : fl.toNat < 2 := Bool.toNat_lt fl
  rw [bits, commandWord_toNat hop ha hb hc fl]
  omega

theorem bits_ra : bits (commandWord op ra rb rc fl) 23 20 = ra := by
  have hfl : fl.toNat < 2 := Bool.toNat_lt fl
  rw [bits, commandWord_toNat hop ha hb hc fl]
  omega

theorem bits_rb : bits (commandWord op ra rb rc fl) 19 16 = rb := by
  have hfl : fl.toNat < 2 := Bool.toNat_lt fl
  rw [bits, commandWord_toNat hop ha hb hc fl]
  omega

theorem bits_rc : bits (commandWord op ra rb rc fl) 15 12 = rc := by
  have hfl : fl.toNat < 2 := Bool.toNat_lt fl
  rw [bits, commandWord_toNat hop ha hb hc fl]
  omega

theorem bits_zero : bits (commandWord op ra rb rc fl) 11 1 = 0 := by
  have hfl : fl.toNat < 2 := Bool.toNat_lt fl
  rw [bits, commandWord_toNat hop ha hb hc fl]
  omega

theorem bits_flag : bits (commandWord op ra rb rc fl) 0 0 = fl.toNat := by
  have hfl : fl.toNat < 2 := Bool.toNat_lt fl
  rw [bits, commandWord_toNat hop ha hb hc fl]
  omega

/-- A word of format C decodes as its row reads its fields. -/
theorem decode_commandWord :
    decode (commandWord op ra rb rc fl) = decodeRow op ra rb rc fl.toNat := by
  rw [decode, bits_zero hop ha hb hc, bits_op hop ha hb hc, bits_ra hop ha hb hc,
    bits_rb hop ha hb hc, bits_rc hop ha hb hc, bits_flag hop ha hb hc]
  rfl

end Fields

/-! ### A word and its fields -/

/-- A word whose bits 11:1 are zero is the word of its fields. -/
theorem commandWord_bits {w : Word} (h : bits w 11 1 = 0) :
    commandWord (bits w 31 24) (bits w 23 20) (bits w 19 16) (bits w 15 12) (bits w 0 0 == 1) = w := by
  have hw : w.toNat < 2 ^ 32 := w.isLt
  have hfl : (bits w 0 0 == 1).toNat = bits w 0 0 := by
    have : bits w 0 0 < 2 := Nat.mod_lt _ (by decide)
    rcases (show bits w 0 0 = 0 ∨ bits w 0 0 = 1 by omega) with e | e <;> rw [e] <;> rfl
  apply BitVec.eq_of_toNat_eq
  rw [commandWord, BitVec.toNat_ofNat, hfl]
  simp only [bits] at h ⊢
  omega

/-! ### The field checks (R113, R114) -/

@[simp] theorem usedField_val (a : VReg) : usedField a.val = .ok a := by simp [usedField]

theorem usedField_eq_ok {f : Nat} {a : VReg} : usedField f = .ok a ↔ f = a.val := by
  unfold usedField
  constructor
  · intro h
    split at h
    · cases h; rfl
    · cases h
  · rintro rfl; simp

@[simp] theorem unusedField_zero : unusedField 0 = .ok () := rfl
@[simp] theorem zeroField_zero : zeroField 0 = .ok () := rfl
@[simp] theorem absentFlag_zero : absentFlag 0 = .ok () := rfl

theorem unusedField_eq_ok {f : Nat} {u : Unit} : unusedField f = .ok u ↔ f = 0 := by
  unfold unusedField; split <;> simp_all

theorem zeroField_eq_ok {f : Nat} {u : Unit} : zeroField f = .ok u ↔ f = 0 := by
  unfold zeroField; split <;> simp_all

theorem absentFlag_eq_ok {f : Nat} {u : Unit} : absentFlag f = .ok u ↔ f = 0 := by
  unfold absentFlag; split <;> simp_all

theorem distinct_eq_ok {a b : VReg} {u : Unit} : distinct a b = .ok u ↔ a ≠ b := by
  unfold distinct; split <;> simp_all

/-- A sequence of checks succeeds when each does. -/
theorem bind_eq_ok {α β : Type} {x : Except Illegal α} {f : α → Except Illegal β} {b : β} :
    x >>= f = .ok b ↔ ∃ a, x = .ok a ∧ f a = .ok b := by
  cases x with
  | error e => constructor
               · intro h; cases h
               · rintro ⟨a, h, -⟩; cases h
  | ok a => constructor
            · intro h; exact ⟨a, rfl, h⟩
            · rintro ⟨a', h, h'⟩; cases h; exact h'

end Sys2Proof
end

