-- ==== Sys2Proof/Laws/Numerics.lean ====
section
/-! SUPPORT. The small lemmas of the numerics record: fields of a packed pattern, rounding, and the named properties
of sine and cosine (spec 00_scope.md R11, R21). -/

namespace Sys2Proof.Machine

theorem F32.toNat_pack (b : Bool) {m : Nat} (h : m < 2 ^ 31) :
    (F32.pack b m).toNat = 2 ^ 31 * b.toNat + m := by
  have : b.toNat < 2 := Bool.toNat_lt b
  simp only [F32.pack, BitVec.toNat_ofNat]
  omega

@[simp] theorem F32.magnitude_pack (b : Bool) {m : Nat} (h : m < 2 ^ 31) :
    F32.magnitude (F32.pack b m) = m := by
  have : b.toNat < 2 := Bool.toNat_lt b
  rw [F32.magnitude, F32.toNat_pack b h]
  omega

@[simp] theorem F32.sign_pack (b : Bool) {m : Nat} (h : m < 2 ^ 31) : F32.sign (F32.pack b m) = b := by
  rw [F32.sign, F32.toNat_pack b h]
  cases b
  · simp; omega
  · simp

theorem F32.pack_sign_magnitude (x : Word) : F32.pack (F32.sign x) (F32.magnitude x) = x := by
  apply BitVec.eq_of_toNat_eq
  have hx : x.toNat < 2 ^ 32 := x.isLt
  have hm : F32.magnitude x < 2 ^ 31 := Nat.mod_lt _ (by decide)
  rw [F32.toNat_pack _ hm, F32.sign, F32.magnitude]
  by_cases h : 2 ^ 31 ≤ x.toNat
  · simp only [h, decide_true, Bool.toNat_true]; omega
  · simp only [h, decide_false, Bool.toNat_false]; omega

theorem F32.flMag_le (n d : Nat) : F32.flMag n d ≤ F32.infMagnitude := Nat.min_le_right _ _

theorem F32.flMag_lt (n d : Nat) : F32.flMag n d < 2 ^ 31 :=
  Nat.lt_of_le_of_lt (F32.flMag_le n d) (by decide)

/-- `rne(n / d)` is the floor or the floor plus one, whichever is nearer, the even one on a tie (R10). -/
theorem F32.rneDiv_cases (n d : Nat) :
    (F32.rneDiv n d = n / d ∧ 2 * (n % d) ≤ d ∧ (2 * (n % d) = d → n / d % 2 = 0)) ∨
    (F32.rneDiv n d = n / d + 1 ∧ d ≤ 2 * (n % d) ∧ (2 * (n % d) = d → n / d % 2 = 1)) := by
  simp only [F32.rneDiv]
  split
  · exact .inr ⟨rfl, by omega, by omega⟩
  · split
    · next h =>
      rcases Nat.mod_two_eq_zero_or_one (n / d) with h0 | h1
      · exact .inl ⟨by omega, by omega, fun _ => h0⟩
      · exact .inr ⟨by omega, by omega, fun _ => h1⟩
    · exact .inl ⟨rfl, by omega, by omega⟩

theorem F32.isNaN_nan (op : NumOp) (a b : Word) : F32.isNaN (F32.nan op a b) = true := by
  have hp := (Config.nanBits op a b).payload.isLt
  have hm : F32.infMagnitude + 1 + (Config.nanBits op a b).payload.val < 2 ^ 31 := by
    simp only [F32.infMagnitude]; omega
  have e : F32.magnitude (F32.nan op a b) =
      F32.infMagnitude + 1 + (Config.nanBits op a b).payload.val := F32.magnitude_pack _ hm
  simp only [F32.isNaN, F32.expo, F32.frac, e, F32.infMagnitude, Bool.and_eq_true, beq_iff_eq,
    bne_iff_ne]
  constructor <;> omega

theorem F32.sin_posZero : F32.sin F32.posZero = F32.posZero := if_pos rfl

theorem F32.cos_posZero : F32.cos F32.posZero = F32.one := if_pos rfl

theorem F32.fft_length (n : Nat) (x : List C32) : (F32.fft n x).length = n := by simp [F32.fft]

theorem F32.ifft_length (n : Nat) (x : List C32) : (F32.ifft n x).length = n := by simp [F32.ifft]

end Sys2Proof.Machine
end

