-- ==== Sys2Proof/Laws/Port.lean ====
section
/-! SUPPORT. What serving one event can do (spec 20_memory.md R84 to R90, 30_encoding.md R112). -/

namespace Sys2Proof.Machine

variable {s t : State} {e : HostEvent}

/-! ### The map (R82) -/

section Map

variable {off : Nat}

theorem locate_vwindow (i : VReg) {k : Nat} (hk : k < 2 ^ 22)
    (h : off = vBase + windowSize * i.val + 4 * k) : locate off = some (.vwindow i k) := by
  simp only [vBase, windowSize] at h
  have hp : off / windowSize = 0x10 + i.val := by simp only [windowSize]; omega
  have he : elementIndex off = k := by simp only [elementIndex, windowSize]; omega
  have hf : Fin.ofNat 8 (0x10 + i.val) = i := by apply Fin.ext; simp only [Fin.ofNat]; omega
  simp only [locate, hp, he, hf]
  rw [if_neg (by omega), if_pos (by omega)]

theorem locate_symWindow {k : Nat} (hk : k < 2 ^ 22) (h : off = symBase + 4 * k) :
    locate off = some (.symWindow k) := by
  simp only [symBase] at h
  have hp : off / windowSize = 0x20 := by simp only [windowSize]; omega
  have he : elementIndex off = k := by simp only [elementIndex, windowSize]; omega
  simp only [locate, hp, he]
  rw [if_neg (by omega), if_neg (by omega), if_pos trivial]

theorem locate_audWindow {k : Nat} (hk : k < 2 ^ 22) (h : off = audBase + 4 * k) :
    locate off = some (.audWindow k) := by
  simp only [audBase] at h
  have hp : off / windowSize = 0x30 := by simp only [windowSize]; omega
  have he : elementIndex off = k := by simp only [elementIndex, windowSize]; omega
  simp only [locate, hp, he]
  rw [if_neg (by omega), if_neg (by omega), if_neg (by omega), if_pos trivial]

/-- Outside the scalar block and the ten windows the map has no location. -/
theorem locate_none (h : 0x100 ≤ off)
    (hv : off / windowSize < 0x10 ∨ 0x18 ≤ off / windowSize) (hs : off / windowSize ≠ 0x20)
    (ha : off / windowSize ≠ 0x30) : locate off = none := by
  simp only [locate]
  rw [if_neg (by omega), if_neg (by omega), if_neg hs, if_neg ha]

theorem locate_scalar (r : ScalarReg) : locate r.offset = some (.reg r) := by
  cases r with
  | vl i => revert i; decide
  | _ => decide

theorem scalar_aligned (r : ScalarReg) : r.offset % 4 = 0 ∧ r.offset < 2 ^ 32 := by
  cases r with
  | vl i => simp only [ScalarReg.offset]; omega
  | _ => decide

/-- The offset of a scalar register is the one address that reaches it. -/
theorem eq_offset_of_locate {addr : Word} {r : ScalarReg} (h : locate addr.toNat = some (.reg r)) :
    addr = BitVec.ofNat 32 r.offset := by
  simp only [locate] at h
  split at h
  · obtain ⟨r', hr, e⟩ := Option.map_eq_some_iff.mp h
    cases e
    have hb := List.find?_some hr
    apply BitVec.eq_of_toNat_eq
    rw [BitVec.toNat_ofNat, Nat.mod_eq_of_lt (scalar_aligned r).2]
    exact (beq_iff_eq.mp hb).symm
  · repeat' split at h
    all_goals cases h

/-- An aligned 32-bit transaction on a scalar register reaches it. -/
theorem access_scalar (s : State) (r : ScalarReg) :
    access s (BitVec.ofNat 32 r.offset) 4 = .ok (.reg r) := by
  have h := scalar_aligned r
  have e : (BitVec.ofNat 32 r.offset).toNat = r.offset := by
    rw [BitVec.toNat_ofNat]; exact Nat.mod_eq_of_lt h.2
  simp only [access, e, locate_scalar, h.1, ne_eq, not_true_eq_false, if_false]

theorem access_vwindow (s : State) {addr : Word} (i : VReg) {k : Nat} (hk : k < 2 ^ 22)
    (h : addr.toNat = vBase + windowSize * i.val + 4 * k) :
    access s addr 4 = if k < s.inst.vlmax then .ok (.vwindow i k) else .error .indexRange := by
  have h4 : addr.toNat % 4 = 0 := by simp only [vBase, windowSize] at h; omega
  simp only [access, locate_vwindow i hk h, h4, ne_eq, not_true_eq_false, if_false]

theorem access_symWindow (s : State) {addr : Word} {k : Nat} (hk : k < 2 ^ 22)
    (h : addr.toNat = symBase + 4 * k) :
    access s addr 4 = if k < s.inst.vlmax then .ok (.symWindow k) else .error .indexRange := by
  have h4 : addr.toNat % 4 = 0 := by simp only [symBase] at h; omega
  simp only [access, locate_symWindow hk h, h4, ne_eq, not_true_eq_false, if_false]

theorem access_audWindow (s : State) {addr : Word} {k : Nat} (hk : k < 2 ^ 22)
    (h : addr.toNat = audBase + 4 * k) :
    access s addr 4 = if k < s.inst.vlmax then .ok (.audWindow k) else .error .indexRange := by
  have h4 : addr.toNat % 4 = 0 := by simp only [audBase] at h; omega
  simp only [access, locate_audWindow hk h, h4, ne_eq, not_true_eq_false, if_false]

end Map

/-! ### Serving an event -/

/-- A transaction that reaches a location has the right width and alignment, is mapped, and names an element
below `VLMAX` (R81, R83). -/
theorem access_ok {addr : Word} {size : Nat} {loc : Location} (h : access s addr size = .ok loc) :
    size = 4 ∧ addr.toNat % 4 = 0 ∧ locate addr.toNat = some loc ∧
      (∀ i k, loc = .vwindow i k → k < s.inst.vlmax) ∧
      (∀ k, loc = .symWindow k → k < s.inst.vlmax) ∧
      (∀ k, loc = .audWindow k → k < s.inst.vlmax) := by
  unfold access at h
  split at h
  · cases h
  · next h4 =>
    split at h
    · cases h
    · next ha =>
      refine ⟨not_not.mp h4, not_not.mp ha, ?_⟩
      cases hl : locate addr.toNat with
      | none => simp [hl] at h
      | some l =>
        cases l with
        | reg r => simp [hl] at h; simp [← h]
        | vwindow i k =>
          simp only [hl] at h
          split at h
          · next hk => cases h; simpa using hk
          · cases h
        | symWindow k =>
          simp only [hl] at h
          split at h
          · next hk => cases h; simpa using hk
          · cases h
        | audWindow k =>
          simp only [hl] at h
          split at h
          · next hk => cases h; simpa using hk
          · cases h

/-- A read answers a response or a draw, and does nothing else (R84, R89). -/
theorem portRead_cases (s : State) (addr : Word) (size : Nat) :
    (∃ r, portRead s addr size = s.respond r) ∨ portRead s addr size = s.answerDraw := by
  unfold portRead
  split
  · exact .inl ⟨_, rfl⟩
  · split
    · exact .inl ⟨_, rfl⟩
    · exact .inl ⟨_, rfl⟩
  · split
    · exact .inr rfl
    · exact .inl ⟨_, rfl⟩

/-- Everything a served event that runs no command can have done. -/
inductive Served (s : State) : State → Prop where
  | responded (r : Reply) : Served s (s.respond r)
  | drawn : Served s s.answerDraw
  | pinReset : Served s s.applyReset
  | softReset : Served s (s.applyReset.respond .ack)
  | illegal (w : Word) : s.fr.faulted = false →
      Served s ((s.takeFault w (Raise.plain .illegalCmd w 0#32)).respond .ack)
  | params (q : ParamRegs) : Served s ((s.setParams q).respond .ack)
  | vlength (i : VReg) (n : Nat) : n ≤ s.inst.vlmax →
      Served s ((s.setV i ((s.vreg i).setLen n)).respond .ack)
  | symLength (n : Nat) : n ≤ s.inst.vlmax → Served s ((s.setSym (s.mem.sym.setLen n)).respond .ack)
  | velement (i : VReg) (k : Nat) (w : Word) : k < s.inst.vlmax →
      Served s ((s.setV i ((s.vreg i).poke k w)).respond .ack)
  | symElement (k : Nat) (w : Word) : k < s.inst.vlmax →
      Served s ((s.setSym (s.mem.sym.poke k w)).respond .ack)

theorem issue_done {w : Word} (h : issue s w = .done t) : Served s t := by
  unfold issue at h
  split at h
  · cases h; exact .responded _
  · next hf =>
    split at h
    · cases h; exact .illegal w (by simpa using hf)
    · cases h

theorem issue_run {w : Word} {i : Instr} (h : issue s w = .run i) :
    s.fr.faulted = false ∧ decode w = .ok i := by
  unfold issue at h
  split at h
  · cases h
  · next hf =>
    split at h
    · cases h
    · next hd => cases h; exact ⟨by simpa using hf, hd⟩

theorem writeLength_served {n : Nat} {set : Nat → State}
    (h : ∀ m, m ≤ s.inst.vlmax → Served s ((set m).respond .ack)) :
    Served s (writeLength s n set) := by
  unfold writeLength
  split
  · next hn => exact h n hn
  · exact .responded _

theorem writeScalar_done {w : Word} {r : ScalarReg} (h : writeScalar s w r = .done t) : Served s t := by
  cases r with
  | cmd => exact issue_done h
  | ctrl =>
    cases h
    unfold writeCtrl
    split
    · exact .softReset
    · exact .responded _
  | vl i => cases h; exact writeLength_served fun m hm => .vlength i m hm
  | symlen => cases h; exact writeLength_served fun m hm => .symLength m hm
  | id | status | fault | finfo0 | finfo1 | fcmd | cmdcnt | prsgS | audlen =>
    cases h; exact .responded _
  | seed | count | modulus | vlen | fs | baud | fc | gain | kt | kbeta | kd | kn =>
    cases h; exact .params _

/-- Serving an event: what it can do when it runs no command. -/
theorem serve_done (h : serve s e = .done t) : Served s t := by
  cases e with
  | read addr size =>
    cases h
    rcases portRead_cases s addr size with ⟨r, e⟩ | e
    · rw [e]; exact .responded r
    · rw [e]; exact .drawn
  | rst => cases h; exact .pinReset
  | write addr size w =>
    simp only [serve, portWrite] at h
    cases ha : access s addr size with
    | error c => simp only [ha] at h; cases h; exact .responded _
    | ok loc =>
      simp only [ha] at h
      obtain ⟨-, -, -, hv, hs, -⟩ := access_ok ha
      cases loc with
      | reg r => exact writeScalar_done h
      | vwindow i k => cases h; exact .velement i k w (hv i k rfl)
      | symWindow k => cases h; exact .symElement k w (hs k rfl)
      | audWindow k => cases h; exact .responded _

/-- Only a `CMD` write of a legal word without a fault runs a command (30_encoding.md R112). -/
theorem serve_run {i : Instr} (h : serve s e = .run i) :
    ∃ addr w, e = .write addr 4 w ∧ locate addr.toNat = some (.reg .cmd) ∧ s.fr.faulted = false ∧
      decode w = .ok i := by
  cases e with
  | read addr size => cases h
  | rst => cases h
  | write addr size w =>
    simp only [serve, portWrite] at h
    cases ha : access s addr size with
    | error c => simp [ha] at h
    | ok loc =>
      simp only [ha] at h
      obtain ⟨h4, -, hl, -⟩ := access_ok ha
      cases loc with
      | reg r =>
        cases r
        case cmd =>
          obtain ⟨hf, hd⟩ := issue_run h
          exact ⟨addr, w, by rw [h4], hl, hf, hd⟩
        all_goals cases h
      | vwindow i k => cases h
      | symWindow k => cases h
      | audWindow k => cases h

/-- The host's `CMD` write reaches the dispatcher (30_encoding.md R111). -/
theorem serve_commandWrite (s : State) (w : Word) : serve s (commandWrite w) = issue s w := by
  have : access s (BitVec.ofNat 32 (ScalarReg.offset .cmd)) 4 = .ok (.reg .cmd) := by
    have : locate (BitVec.ofNat 32 (ScalarReg.offset .cmd)).toNat = some (.reg .cmd) := by decide
    simp only [access, this]
    rfl
  simp only [serve, commandWrite, portWrite, this, writeScalar]

end Sys2Proof.Machine
end

