-- ==== Sys2Proof/Laws/Outcome.lean ====
section
/-! SUPPORT. Every transaction has one outcome of spec 60_exceptions.md R337, and no two. -/

namespace Sys2Proof.Machine

variable {s t : State} {e : HostEvent}

theorem exec_refused {i : Instr} {r : Refusal} (h : exec i s = .refused r) : r = .unwrittenElement := by
  cases i with
  | gen => simp only [exec, execGen] at h; exact (runCommand_refused h).1
  | ksyn ra n => simp only [exec, execKsyn] at h; exact (runCommand_refused h).1
  | quant rb => simp only [exec, execQuant] at h; exact (runCommand_refused h).1
  | _ => exact (runCommand_refused h).1

theorem exec_fault {i : Instr} {f : Fault} : exec i s ≠ .fault f := nomatch f

/-- Only a `CMD` write runs a command. -/
theorem commandWrite_of_run {i : Instr} (h : serve s e = .run i) : ∃ w, e = commandWrite w := by
  obtain ⟨addr, w, rfl, hl, -, -⟩ := serve_run h
  exact ⟨w, by rw [eq_offset_of_locate hl]; rfl⟩

/-- Every transaction is answered; only the reset input leaves no response. -/
theorem serve_reply (h : serve s e = .done t) (he : e ≠ .rst) : t.reply ≠ none := by
  have hr : ∀ (u : State) (r : Reply), (u.respond r).reply ≠ none := fun _ _ => nofun
  cases e with
  | rst => exact absurd rfl he
  | read addr size =>
    cases h
    rcases portRead_cases s addr size with ⟨r, e⟩ | e
    · rw [e]; exact hr _ _
    · rw [e]; exact nofun
  | write addr size w =>
    simp only [serve, portWrite] at h
    split at h
    · cases h; exact hr _ _
    · next r _ =>
      cases r with
      | cmd =>
        simp only [writeScalar, issue] at h
        split at h
        · cases h; exact hr _ _
        · split at h
          · cases h; exact hr _ _
          · cases h
      | ctrl => cases h; unfold writeCtrl; split <;> exact hr _ _
      | vl i => cases h; unfold writeLength; split <;> exact hr _ _
      | symlen => cases h; unfold writeLength; split <;> exact hr _ _
      | _ => cases h; exact hr _ _
    · cases h; exact hr _ _
    · cases h; exact hr _ _
    · cases h; exact hr _ _

/-- A response that is no port error, and the one that is, after an event that ran no command. -/
theorem serve_answer (h : serve s e = .done t) (he : e ≠ .rst) :
    (t.reply = some .ack ∨ ∃ w, t.reply = some (.data w)) ∨ ∃ c, t = s.respond (.portError c) := by
  have hn := serve_reply h he
  cases serve_done h with
  | responded r =>
    cases r with
    | ack => exact .inl (.inl rfl)
    | data w => exact .inl (.inr ⟨w, rfl⟩)
    | portError c => exact .inr ⟨c, rfl⟩
  | drawn => exact .inl (.inr ⟨_, rfl⟩)
  | pinReset => exact absurd rfl hn
  | _ => exact .inl (.inl rfl)

end Sys2Proof.Machine

namespace Sys2Proof

open Machine

variable {s t : State}

/-- What a `CMD` write can end in. -/
theorem commandWrite_outcome {w : Word} {rest : List HostEvent} (h : s.inbox = commandWrite w :: rest) :
    (∃ t, step s = .next t ∧ (Completed s t ∨ Faulted s t ∨ CommandIgnored s t)) ∨ RefusedByModel s := by
  have hs := serve_commandWrite (s.withInbox rest) w
  have hi : s.inbox ≠ [] := by rw [h]; exact nofun
  cases hf : s.fr.faulted with
  | true =>
    rw [issue, if_pos (show (s.withInbox rest).fr.faulted = true from hf)] at hs
    have hd := step_done h hs
    exact .inl ⟨_, hd, .inr (.inr ⟨hf, hd, w, rest, h, rfl⟩)⟩
  | false =>
    rw [issue, if_neg (by rw [show (s.withInbox rest).fr.faulted = false from hf]; exact nofun)] at hs
    cases hw : decode w with
    | error c =>
      rw [hw] at hs
      have hd := step_done h hs
      exact .inl ⟨_, hd, .inr (.inl ⟨hf, hd, w, rest, h, _, rfl, rfl⟩)⟩
    | ok i =>
      rw [hw] at hs
      have hd := step_run h hs
      cases he : exec i (s.withInbox rest) with
      | fault f => exact absurd he exec_fault
      | refused r => rw [he, exec_refused he] at hd; exact .inr hd
      | next u =>
        rw [he] at hd
        refine .inl ⟨_, hd, ?_⟩
        rcases exec_next he with ⟨r, rfl⟩ | ⟨v, rfl, hk, hr, hc⟩
        · exact .inr (.inl ⟨hf, hd, w, rest, h, _, rfl, rfl⟩)
        · refine .inl ⟨⟨hi, hd⟩, .inl rfl, fun _ _ _ => ⟨hf, hr, ?_⟩⟩
          exact congrArg (· + 1#32) hc

/-- Every transaction has one of the outcomes of R337, or is a `CMD` write ignored under `FAULTED` (R326). -/
theorem outcome_cases {e : HostEvent} {rest : List HostEvent} (h : s.inbox = e :: rest) (he : e ≠ .rst) :
    (∃ t, step s = .next t ∧
      (Completed s t ∨ Faulted s t ∨ PortRefused s t ∨ CommandIgnored s t)) ∨ RefusedByModel s := by
  by_cases hc : ∃ w, e = commandWrite w
  · obtain ⟨w, rfl⟩ := hc
    rcases commandWrite_outcome h with ⟨t, ht, h1 | h2 | h3⟩ | h4
    · exact .inl ⟨t, ht, .inl h1⟩
    · exact .inl ⟨t, ht, .inr (.inl h2)⟩
    · exact .inl ⟨t, ht, .inr (.inr (.inr h3))⟩
    · exact .inr h4
  · cases hs : serve (s.withInbox rest) e with
    | run i => exact absurd (commandWrite_of_run hs) hc
    | done t =>
      have hd := step_done h hs
      refine .inl ⟨t, hd, ?_⟩
      rcases serve_answer hs he with ha | ⟨c, rfl⟩
      · refine .inl ⟨⟨by rw [h]; exact nofun, hd⟩, ha, fun w r hw => ?_⟩
        rw [h] at hw
        injection hw with hw _
        exact absurd ⟨w, hw⟩ hc
      · exact .inr (.inr (.inl ⟨hd, e, rest, c, h, rfl⟩))

/-! ### No two hold together -/

theorem Completed.not_faulted (h : Completed s t) : ¬ Faulted s t := by
  rintro ⟨hf, -, w, rest, hi, record, hr, rfl⟩
  obtain ⟨-, he, -⟩ := h.ran w rest hi
  rw [show record = s.fr from he, hf] at hr
  cases hr

theorem Completed.not_portRefused (h : Completed s t) : ¬ PortRefused s t := by
  rintro ⟨-, e, rest, c, -, rfl⟩
  rcases h.answered with h | ⟨w, h⟩ <;> cases h

theorem Completed.not_commandIgnored (h : Completed s t) : ¬ CommandIgnored s t := by
  rintro ⟨hf, -, w, rest, hi, -⟩
  rw [(h.ran w rest hi).1] at hf
  cases hf

theorem Faulted.not_portRefused (h : Faulted s t) : ¬ PortRefused s t := by
  rintro ⟨-, e, rest, c, -, rfl⟩
  obtain ⟨-, -, w, rest', -, record, -, h⟩ := h
  cases congrArg State.reply h

theorem Faulted.not_commandIgnored (h : Faulted s t) : ¬ CommandIgnored s t := by
  rintro ⟨hf, -⟩
  rw [h.1] at hf
  cases hf

theorem PortRefused.not_commandIgnored (h : PortRefused s t) : ¬ CommandIgnored s t := by
  rintro ⟨-, -, w, rest', -, rfl⟩
  obtain ⟨-, e, rest, c, -, h⟩ := h
  cases congrArg State.reply h

/-- A refusal by the model is no next state, so none of the others. -/
theorem RefusedByModel.not_next (h : RefusedByModel s) : step s ≠ .next t := by
  rw [h]; exact nofun

end Sys2Proof
end

