-- ==== Sys2Proof/Laws/PerInstr.lean ====
section
/-! SUPPORT. A statement about each command as syntax: bits 11:1 of its word are zero and its opcode is one of
the table's nine (spec 30_encoding.md R110, R114, R115). -/

namespace Sys2Proof.Laws.ReservedBits

def Statement (i : Instr) : Prop :=
  bits (encode i) 11 1 = 0 ∧ 1 ≤ bits (encode i) 31 24 ∧ bits (encode i) 31 24 ≤ 9

/-- The same of any word of format C with fields in range. -/
theorem commandWord_bits {op ra rb rc : Nat} (hop : op < 256) (ha : ra < 16) (hb : rb < 16)
    (hc : rc < 16) (fl : Bool) :
    bits (commandWord op ra rb rc fl) 11 1 = 0 ∧ bits (commandWord op ra rb rc fl) 31 24 = op := by
  have hfl : fl.toNat < 2 := Bool.toNat_lt fl
  simp only [bits, commandWord, BitVec.toNat_ofNat]
  norm_num
  constructor <;> omega

theorem of_commandWord {op : Nat} (hop : 1 ≤ op ∧ op ≤ 9) {ra rb rc : Nat} (ha : ra < 16)
    (hb : rb < 16) (hc : rc < 16) {fl : Bool} {i : Instr} (h : encode i = commandWord op ra rb rc fl) :
    Statement i := by
  have := commandWord_bits (op := op) (by omega) ha hb hc fl
  rw [Statement, h]
  omega

theorem gen : Statement .gen := of_commandWord (by decide) (by decide) (by decide) (by decide) rfl

theorem ksyn (ra : VReg) (n : Bool) : Statement (.ksyn ra n) :=
  of_commandWord (by decide) (by omega) (by decide) (by decide) rfl

theorem map (ra rb : VReg) (o : Bool) : Statement (.map ra rb o) :=
  of_commandWord (by decide) (by omega) (by omega) (by decide) rfl

theorem stretch (ra rb : VReg) (h : Bool) : Statement (.stretch ra rb h) :=
  of_commandWord (by decide) (by omega) (by omega) (by decide) rfl

theorem conv (ra rb rc : VReg) : Statement (.conv ra rb rc) :=
  of_commandWord (by decide) (by omega) (by omega) (by omega) rfl

theorem vmul (ra rb : VReg) : Statement (.vmul ra rb) :=
  of_commandWord (by decide) (by omega) (by omega) (by decide) rfl

theorem mix (ra rb rc : VReg) : Statement (.mix ra rb rc) :=
  of_commandWord (by decide) (by omega) (by omega) (by omega) rfl

theorem vacc (ra rb : VReg) (i : Bool) : Statement (.vacc ra rb i) :=
  of_commandWord (by decide) (by omega) (by omega) (by decide) rfl

theorem quant (rb : VReg) : Statement (.quant rb) :=
  of_commandWord (by decide) (by decide) (by omega) (by decide) rfl

end Sys2Proof.Laws.ReservedBits
end

