-- ==== Sys2Proof/Machine/Reference.lean ====
section
/-! DEFINITION. The reference reading (spec 00_scope.md R23): the result of each command that uses `NUM`
when every F32 is the real number it stands for and every field of `NUM` the exact operation it names. No
step uses it, and nothing proved of it is proved of the F32 block.

The readings that need only field operations hold over any field `K`: over ℚ they can be evaluated,
over ℝ they meet the exact sine of MIX. The checks on lengths and `VLMAX` that stand before the
arithmetic of a command are the block's own in every reading and are not repeated here.

DESIGN CHOICE (entry 26): where an exact quotient has the divisor 0 the spec gives the reference result no
value (00_scope.md R23 and 42_fft_convolution.md R197 name a real quotient; R201 and 44_quadrature_mixer.md
R255 speak of `NUM.div` alone). The reading then is `noValue`, and no number stands for it. -/

namespace Sys2Proof.Machine.Reference

/-- The outcome of a command in the reference reading. -/
inductive Reading (α : Type) where
  /-- The exact result. -/
  | value (x : α)
  /-- The fault of the command's data checks, with the index it is found at. -/
  | fault (code : FaultCode) (index : Nat)
  /-- The pseudocode divides by an exact zero, and the reference result has no value (entry 26). -/
  | noValue
deriving DecidableEq, Repr

section Field

variable {K : Type} [Field K] [DecidableEq K]

/-- `val(x)`: absent for an infinity and a NaN, which stand for no real number (00_scope.md R11). -/
def val (x : Word) : Option K :=
  if F32.isFinite x then some ((F32.scaled x : K) / 2 ^ 149) else none

/-- The operands of a reading, if every pattern is finite. -/
def vals (xs : List Word) : Option (List K) := allSome (xs.map val)

/-- The exact quotient; absent for a divisor of 0 (entry 26). -/
def quotient (a b : K) : Option K := if b = 0 then none else some (a / b)

/-- Every element divided by one number. Nothing is divided, and nothing is missing, where there is no element
(41_filter_kernel.md R172; 44_quadrature_mixer.md R256). -/
def quotients (xs : List K) (b : K) : Reading (List K) :=
  match allSome (xs.map fun x => quotient x b) with
  | none => .noValue
  | some ys => .value ys

/-! ### CONV, VMUL and VACC -/

/-- `raw[n] = Σ s[m]·h[n - m]`, elements out of range read as 0 (42_fft_convolution.md R197). -/
def raw (s h : List K) (n : Nat) : K :=
  ((List.range (n + 1)).map fun m => s.getD m 0 * h.getD (n - m) 0).sum

/-- CONV: `out[i] = raw[i + shift] / Σ h[j]` for `0 ≤ i < size - shift` (42_fft_convolution.md R197). The rule
gives no result for a tap sum of 0 (entry 26). -/
def convolve (s h : List K) : Reading (List K) :=
  quotients ((List.range (convSize s.length h.length - convShift h.length)).map fun i =>
    raw s h (i + convShift h.length)) h.sum

/-- VMUL (42_fft_convolution.md R205). -/
def vmul (xs ys : List K) : List K := List.zipWith (· * ·) xs ys

/-- VACC without `I` (45_vector_accumulator.md R267); with `I` it copies, in every reading. -/
def vacc (xs ys : List K) : List K := List.zipWith (· + ·) xs ys

/-- STRETCH is a copy in every reading (43_complex_upsampler.md R230). -/
def stretch {α : Type} (desired : Nat) (xs : List α) : List α :=
  (List.range desired).filterMap fun i => xs[stretchIndex xs.length desired i]?

end Field

/-! ### KSYN and QUANT -/

section Ordered

variable {K : Type} [Field K] [LinearOrder K]

/-- `Grid(lo, hi, count, k)` = `lo + k·(hi - lo)/count` (41_filter_kernel.md R162); `count` is nonzero where
there is a `k` below it. -/
def grid (lo hi : K) (count k : Nat) : K := lo + k * ((hi - lo) / count)

/-- `Tap(a, T, BETA)` (41_filter_kernel.md R164). Where `T/(2·BETA)` has no value the window test fails and the
body is taken, as R164 and R174 say of the F32 quotient (entry 26). -/
def tap (body : K → K → K → K) (limit : K → K → K) (tol a t beta : K) : K :=
  match quotient t (2 * beta) with
  | none => body a t beta
  | some c => if |(|a| - c)| ≤ tol then limit t beta else body a t beta

/-- Validation in the reference reading: every tap is nonzero (41_filter_kernel.md R170). -/
def validate (xs : List K) : Reading (List K) :=
  match xs.findIdx? fun x => decide (x = 0) with
  | some k => .fault .ktapDegenerate k
  | none => .value xs

/-- KSYN for the real counterparts of `NUM.kbody` and `NUM.klimit` (41_filter_kernel.md R165, R168, R170). -/
def ksyn (body : K → K → K → K) (limit : K → K → K) (tol t beta d : K) (n : Nat) (norm : Bool) :
    Reading (List K) :=
  let taps := (List.range n).map fun k => tap body limit tol (grid (-d) d n k) t beta
  match validate taps with
  | .value ts =>
    if norm then
      match quotients ts ts.sum with
      | .value us => validate us
      | other => other
    else .value ts
  | other => other

variable [IsStrictOrderedRing K] [FloorRing K]

/-- `trunc(x)`, toward zero (00_scope.md R10). -/
def trunc (x : K) : Int := if 0 ≤ x then ⌊x⌋ else ⌈x⌉

/-- `rne(x)`: nearest, ties to even (00_scope.md R10). -/
def rne (x : K) : Int :=
  let z := ⌊x⌋
  if x - z < 1 / 2 then z
  else if 1 / 2 < x - z then z + 1
  else if z % 2 = 0 then z else z + 1

/-- `ToInt(x)` (46_fixed_point_quantizer.md R281). -/
def toInt (mode : QRound) (x : K) : Int :=
  match mode with
  | .trunc => trunc x
  | .nearestEven => rne x

/-- QUANT on exact products; a real product is finite, so the one data fault is `QUANT_RANGE`
(46_fixed_point_quantizer.md R282, R284, R285). -/
def quant (mode : QRound) (gain : K) (xs : List K) : Reading (List Sample) :=
  let zs := xs.map fun x => toInt mode (gain * x)
  match zs.findIdx? fun z => decide (z < -2 ^ 31 ∨ 2 ^ 31 - 1 < z) with
  | some k => .fault .quantRange k
  | none => .value (zs.map F32.wrap16)

end Ordered

/-! ### The readings with exact transcendental functions -/

/-- The sinc helper (41_filter_kernel.md R161), which a kernel body may use. -/
noncomputable def sinc (x : ℝ) : ℝ :=
  if |x| ≤ (F32.scaled Config.sincClamp : ℝ) / 2 ^ 149 then 1
  else Real.sin (Real.pi * x) / (Real.pi * x)

/-- A constellation pair: cosine and sine of the phase angle (43_complex_upsampler.md R222). -/
noncomputable def mapPoint (o : Bool) (k : Nat) (symbol : Word) : ℝ × ℝ :=
  let angle := phaseIndex o k symbol * (Real.pi / 4)
  (Real.cos angle, Real.sin angle)

/-- MAP: the header and the symbols, each mapped (43_complex_upsampler.md R221, R222). -/
noncomputable def mapPoints (o : Bool) (symbols : List Word) : List (ℝ × ℝ) :=
  (List.replicate Config.headerLen 0#32 ++ symbols).zipIdx.map fun (x, k) => mapPoint o k x

/-- The carrier phase `2π·FC·n/FS` (44_quadrature_mixer.md R251), for a nonzero `FS`. -/
noncomputable def theta (fc : ℝ) (fs n : Nat) : ℝ := 2 * Real.pi * fc * n / fs

/-- MIX: `I·sin θ + Q·cos θ` (44_quadrature_mixer.md R252). With `FS` = 0 the phase of a sample has no value
(entry 26). -/
noncomputable def mix (fc : ℝ) (fs : Nat) (is qs : List ℝ) : Reading (List ℝ) :=
  let out := (is.zip qs).zipIdx.map fun (iq, n) =>
    iq.1 * Real.sin (theta fc fs n) + iq.2 * Real.cos (theta fc fs n)
  if fs = 0 ∧ out ≠ [] then .noValue else .value out

/-- The exact transform (00_scope.md R22). -/
noncomputable def fft (n : Nat) (x : List ℂ) : List ℂ :=
  (List.range n).map fun k =>
    ((List.range n).map fun j =>
      x.getD j 0 * Complex.exp (-2 * Real.pi * Complex.I * j * k / n)).sum

/-- The exact inverse transform (00_scope.md R22). -/
noncomputable def ifft (n : Nat) (x : List ℂ) : List ℂ :=
  (List.range n).map fun j =>
    ((List.range n).map fun k =>
      x.getD k 0 * Complex.exp (2 * Real.pi * Complex.I * j * k / n)).sum / n

end Sys2Proof.Machine.Reference
end

