-- ==== Sys2Proof/Laws/Reference.lean ====
section
/-! SUPPORT. The laws of the reference reading: its quotients, the worked mixer rows of spec
44_quadrature_mixer.md R259, and the all-zero stream of 47_pipeline_macros.md R310. -/

namespace Sys2Proof.Machine.Reference

section Field

variable {K : Type} [Field K]

/-! ### The raw convolution of constant signals (47_pipeline_macros.md R310) -/

/-- A zero signal gives zeros. -/
theorem raw_zeros (l n : Nat) (h : List K) : raw (List.replicate l 0) h n = 0 := by
  have : ∀ m, (List.replicate l (0 : K)).getD m 0 = 0 := fun m => by
    rw [List.getD_eq_getElem?_getD, List.getElem?_replicate]
    split <;> rfl
  simp only [raw, this, zero_mul]
  simp

/-- The sum over a prefix of the indices is the sum of a list no longer than it. -/
theorem sum_getD_range (h : List K) {n : Nat} (hn : h.length ≤ n) :
    ((List.range n).map fun j => h.getD j 0).sum = h.sum := by
  induction h generalizing n with
  | nil => simp
  | cons x h ih =>
    cases n with
    | zero => simp at hn
    | succ n =>
      rw [List.range_succ_eq_map, List.map_cons, List.map_map, List.sum_cons, List.sum_cons]
      congr 1
      exact ih (by simpa using hn)

/-- A constant signal: sample `n` sums the taps `j` with `0 ≤ n - j < L` (R310). -/
theorem raw_ones (l n : Nat) (h : List K) :
    raw (List.replicate l 1) h n =
      ((List.range (n + 1)).map fun j => if n - j < l then h.getD j 0 else 0).sum := by
  have e : ∀ m, (List.replicate l (1 : K)).getD m 0 = if m < l then 1 else 0 := fun m => by
    rw [List.getD_eq_getElem?_getD, List.getElem?_replicate]
    split <;> rfl
  have r : (List.range (n + 1)).map (fun j => n - j) = (List.range (n + 1)).reverse := by
    rw [List.range_eq_range', List.reverse_range']
    simp [List.range_eq_range']
  simp only [raw, e, ite_mul, one_mul, zero_mul]
  rw [← List.sum_reverse, ← List.map_reverse, ← r, List.map_map]
  congr 1
  apply List.map_congr_left
  intro j hj
  have hj' : n - (n - j) = j := by have := List.mem_range.mp hj; omega
  simp only [Function.comp_apply, hj']

/-- Between the ramps every tap is counted, and the shaped sample is 1 (R310). -/
theorem raw_ones_full {l n : Nat} {h : List K} (hk : h.length ≤ n + 1) (hl : n < l) :
    raw (List.replicate l 1) h n = h.sum := by
  rw [raw_ones, ← sum_getD_range h hk]
  congr 1
  apply List.map_congr_left
  intro j _
  rw [if_pos (by omega)]

/-! ### Quotients and CONV -/

variable [DecidableEq K]

@[simp] theorem quotient_zero (a : K) : quotient a 0 = none := if_pos rfl

theorem quotient_of_ne {a b : K} (h : b ≠ 0) : quotient a b = some (a / b) := if_neg h

theorem quotients_of_ne {b : K} (h : b ≠ 0) (xs : List K) :
    quotients xs b = .value (xs.map fun x => x / b) := by
  have e : (xs.map fun x => some (x / b)) = (xs.map fun x => x / b).map some := by rw [List.map_map]; rfl
  simp only [quotients, quotient_of_ne h, e, allSome_map_some]

/-- With a divisor of 0 only the empty sequence has its quotients. -/
theorem quotients_zero {xs : List K} (h : xs ≠ []) : quotients xs (0 : K) = .noValue := by
  cases xs with
  | nil => exact absurd rfl h
  | cons x xs => simp [quotients, allSome]

/-- CONV has a reference result where the tap sum is nonzero (42_fft_convolution.md R197). -/
theorem convolve_of_ne {s h : List K} (hs : h.sum ≠ 0) :
    convolve s h = .value
      ((List.range (convSize s.length h.length - convShift h.length)).map fun i =>
        raw s h (i + convShift h.length) / h.sum) := by
  rw [convolve, quotients_of_ne hs, List.map_map]
  rfl

/-- The zero branch stays zero. -/
theorem convolve_zeros {l : Nat} {h : List K} (hs : h.sum ≠ 0) :
    convolve (List.replicate l 0) h =
      .value (List.replicate (convSize l h.length - convShift h.length) 0) := by
  rw [convolve_of_ne hs]
  simp [raw_zeros, List.map_const']

end Field

/-! ### STRETCH -/

/-- STRETCH of a constant sequence is constant (R310; 43_complex_upsampler.md R230). -/
theorem stretch_replicate {α : Type} {n : Nat} (hn : n ≠ 0) (desired : Nat) (x : α) :
    stretch desired (List.replicate n x) = List.replicate desired x := by
  have e : ∀ i ∈ List.range desired,
      (List.replicate n x)[stretchIndex (List.replicate n x).length desired i]? = some x := by
    intro i _
    rw [List.getElem?_replicate, if_pos]
    rw [List.length_replicate, stretchIndex]
    split
    · next h => exact Nat.div_lt_of_lt_mul h
    · omega
  rw [stretch, List.filterMap_congr e]
  simp [List.map_const']

/-! ### MAP and MIX -/

/-- The symbol 0 without the offset flag stands at (1, 0) (R310). -/
theorem mapPoints_zeros (n : Nat) :
    mapPoints false (List.replicate n 0#32) = List.replicate (Config.headerLen + n) (1, 0) := by
  rw [mapPoints, List.replicate_append_replicate]
  apply List.ext_getElem
  · simp
  · intro i h1 h2
    simp [mapPoint, phaseIndex]

/-- With a nonzero sample rate MIX has its exact result (44_quadrature_mixer.md R252). -/
theorem mix_of_ne (fc : ℝ) {fs : Nat} (h : fs ≠ 0) (is qs : List ℝ) :
    mix fc fs is qs = .value ((is.zip qs).zipIdx.map fun (iq, n) =>
      iq.1 * Real.sin (theta fc fs n) + iq.2 * Real.cos (theta fc fs n)) :=
  if_neg fun h' => h h'.1

/-- With a zero Q branch MIX is the shaped I branch on the exact sine: a pure sine where the branch is 1
(R310). -/
theorem mix_zero_branch (fc : ℝ) {fs : Nat} (h : fs ≠ 0) (is : List ℝ) :
    mix fc fs is (List.replicate is.length 0) =
      .value (is.zipIdx.map fun (i, n) => i * Real.sin (2 * Real.pi * fc * n / fs)) := by
  rw [mix_of_ne fc h]
  congr 1
  apply List.ext_getElem
  · simp
  · intro i h1 h2
    simp [theta]

/-- A carrier of a quarter of the sample rate has the phase `n·π/2`. -/
theorem theta_quarter {fs : Nat} (h : fs ≠ 0) (n : Nat) : theta (fs / 4) fs n = n * (Real.pi / 2) := by
  have : (fs : ℝ) ≠ 0 := Nat.cast_ne_zero.mpr h
  rw [theta]
  field_simp
  ring

/-- A carrier of half the sample rate has the phase `n·π`. -/
theorem theta_half {fs : Nat} (h : fs ≠ 0) (n : Nat) : theta (fs / 2) fs n = n * Real.pi := by
  have : (fs : ℝ) ≠ 0 := Nat.cast_ne_zero.mpr h
  rw [theta]
  field_simp

/-- R259, third row: `FC` = `FS`/4. -/
theorem mix_quarter {fs : Nat} (h : fs ≠ 0) (i0 i1 i2 i3 q0 q1 q2 q3 : ℝ) :
    mix (fs / 4) fs [i0, i1, i2, i3] [q0, q1, q2, q3] = .value [q0, i1, -q2, -i3] := by
  have h2 : (2 : ℝ) * (Real.pi / 2) = Real.pi := by ring
  have h3 : (3 : ℝ) * (Real.pi / 2) = Real.pi / 2 + Real.pi := by ring
  rw [mix_of_ne _ h]
  simp [List.zipIdx, theta_quarter h, h2, h3, Real.sin_add_pi, Real.cos_add_pi]

/-- R259, fourth row: `FC` = `FS`/2. -/
theorem mix_half {fs : Nat} (h : fs ≠ 0) (i0 i1 i2 q0 q1 q2 : ℝ) :
    mix (fs / 2) fs [i0, i1, i2] [q0, q1, q2] = .value [q0, -q1, q2] := by
  rw [mix_of_ne _ h]
  simp [List.zipIdx, theta_half h]

/-- The all-zero stream through MAP, STRETCH, CONV and MIX (R310): the shaped I branch on a sine, where sample `n`
of the branch is the share of the taps that `raw_ones` counts, and 1 where `raw_ones_full` applies. -/
theorem zeroStream (n desired : Nat) {h : List ℝ} (hs : h.sum ≠ 0) (fc : ℝ) {fs : Nat} (hf : fs ≠ 0) :
    let points := mapPoints false (List.replicate n 0#32)
    let shaped := (List.range (convSize desired h.length - convShift h.length)).map fun i =>
      raw (List.replicate desired 1) h (i + convShift h.length) / h.sum
    convolve (stretch desired (points.map Prod.fst)) h = .value shaped ∧
      convolve (stretch desired (points.map Prod.snd)) h =
        .value (List.replicate shaped.length 0) ∧
      mix fc fs shaped (List.replicate shaped.length 0) =
        .value (shaped.zipIdx.map fun (i, n) => i * Real.sin (2 * Real.pi * fc * n / fs)) := by
  have hn : Config.headerLen + n ≠ 0 := by simp [Config.headerLen]
  refine ⟨?_, ?_, mix_zero_branch fc hf _⟩
  · rw [mapPoints_zeros, List.map_replicate, stretch_replicate hn, convolve_of_ne hs,
      List.length_replicate]
  · rw [mapPoints_zeros, List.map_replicate, stretch_replicate hn, convolve_zeros hs]
    simp

end Sys2Proof.Machine.Reference
end

