-- ==== Sys2Proof/Tests/Slice0.lean ====
section
/-! SUPPORT. Tests. The expected values are those of spec 95_test_vectors.md (named in each comment) or of the rule
named. Then, for every statement of Certificates/Slice0/Obligations.lean that has hypotheses, a concrete state and operands
that meet them. -/

namespace Sys2Proof.Tests

open Sys2Proof.Machine Sys2Proof.Claims

/-! ### Small states -/

/-- An instance with the test values of 95_test_vectors.md: `PRSG_P` = 23, `KSYN_TOL` = 0.05, `VLMAX` = 16. -/
def unit : Params where
  prsgP := 23
  ksynTol := 0x3D4CCCCD#32
  vlmax := 16
  qround := .trunc
  maprom := Config.maprom
  hostBase := 0#32

/-- The reset state of that instance. -/
def blank : State := { State.reset with inst := unit }

/-- Three vector registers loaded. -/
def load (xs ys zs : List Word) : State :=
  ((blank.setV 0 (Buffer.ofList xs)).setV 1 (Buffer.ofList ys)).setV 2 (Buffer.ofList zs)

/-- Symbols loaded. -/
def loadSym (xs : List Word) : State := blank.setSym (Buffer.ofList xs)

/-- A state with the GEN operands of a vector. -/
def genState (seed count modulus : Word) : State :=
  blank.setParams { ParamRegs.zero with seed := seed, count := count, modulus := modulus }

def withGain (s : State) (gain : Word) : State := s.setParams { s.p with gain := gain }

/-- Operands of STRETCH. -/
def withLengths (s : State) (vlen fs baud : Word) : State :=
  s.setParams { s.p with vlen := vlen, fs := fs, baud := baud }

/-- A length raised by hand over elements nobody wrote (10_state.md R48). -/
def unwritten : State := (blank.setV 1 ((blank.vreg 1).setLen 2)).setSym (blank.mem.sym.setLen 2)

/-- Two operands of ones. -/
def convState (m k : Nat) : State :=
  load (List.replicate m 0x3F800000#32) (List.replicate k 0x3F800000#32) []

def pending (s : State) (es : List HostEvent) : State := s.withInbox es

def faulty : State := blank.takeFault 0x06010000#32 (Raise.plain .lenMismatch 2#32 1#32)

/-- The next state of an outcome. -/
def nextOf : Host.Outcome State Fault Refusal → Option State
  | .next t => some t
  | .fault _ => none
  | .refused _ => none

/-- The sequence in a vector register after an outcome. -/
def vOf (i : VReg) (o : Host.Outcome State Fault Refusal) : Option (List Word) :=
  (nextOf o).bind fun t => t.source i

/-- Fault word and information words after an outcome. -/
def faultOf (o : Host.Outcome State Fault Refusal) : Option (Word × Word × Word) :=
  (nextOf o).map fun t => (t.fr.fault, t.fr.finfo0, t.fr.finfo1)

def replyOf (o : Host.Outcome State Fault Refusal) : Option Reply := (nextOf o).bind State.reply

/-! ### WellFormed -/

/-- The one ill-formed term: MAP with equal destinations (30_encoding.md R118). -/
theorem test_wellFormed_refuses_equal_destinations :
    (Instr.map 1 1 false).wellFormed = false ∧ (Instr.map 1 0 false).wellFormed = true := by decide

/-! ### Decoding and assembly (section 2.10; words written out from R116 to R124) -/

theorem test_decode_gen : decode 0x01000000#32 = .ok .gen := by decide
theorem test_decode_ksyn : decode 0x02700001#32 = .ok (.ksyn 7 true) := by decide
theorem test_decode_map : decode 0x03700000#32 = .ok (.map 7 0 false) := by decide
theorem test_decode_stretch : decode 0x04310001#32 = .ok (.stretch 3 1 true) := by decide
theorem test_decode_conv : decode 0x05137000#32 = .ok (.conv 1 3 7) := by decide
theorem test_decode_vmul : decode 0x06010000#32 = .ok (.vmul 0 1) := by decide
theorem test_decode_mix : decode 0x07201000#32 = .ok (.mix 2 0 1) := by decide
theorem test_decode_vacc : decode 0x08620001#32 = .ok (.vacc 6 2 true) := by decide
theorem test_decode_quant : decode 0x09060000#32 = .ok (.quant 6) := by decide

/-- The illegal words of section 2.10, each with its cause (R126). -/
theorem test_decode_illegal :
    decode 0x00000000#32 = .error .unknownOpcode ∧ decode 0x0A000000#32 = .error .unknownOpcode ∧
    (decode 0xFFFFFFFF#32).toOption = none ∧ decode 0x01000001#32 = .error .noFlag ∧
    decode 0x01100000#32 = .error .unusedField ∧ decode 0x02800000#32 = .error .registerAbove7 ∧
    decode 0x02710000#32 = .error .unusedField ∧ decode 0x03000000#32 = .error .sameDestination ∧
    decode 0x03110000#32 = .error .sameDestination ∧ decode 0x03010800#32 = .error .mustBeZero ∧
    decode 0x04200002#32 = .error .mustBeZero ∧ decode 0x05027001#32 = .error .noFlag ∧
    decode 0x06080000#32 = .error .registerAbove7 ∧ decode 0x06011000#32 = .error .unusedField ∧
    decode 0x09160000#32 = .error .unusedField := by decide

theorem test_decodeTableWord : decodeTableWord 32 0x05333000 = some (.conv 3 3 3) := by decide

/-- The lines of R131 as R128 spells them. -/
theorem test_asm :
    asm (.ksyn 7 true) = "KSYN v7, N" ∧ asm (.stretch 1 0 false) = "STRETCH v1, v0" ∧
    asm (.conv 0 2 7) = "CONV v0, v2, v7" ∧ asm (.vacc 6 2 true) = "VACC v6, v2, I" ∧
    asm (.quant 6) = "QUANT v6" := by decide

/-- The command words of MODULATE (47_pipeline_macros.md R302). -/
theorem test_modulate_words :
    modulate 0x40000000#32 4#32 false =
      [wr .fc 0x40000000#32, wr .vlen 4#32, commandWrite 0x03010000#32, commandWrite 0x04200001#32,
       commandWrite 0x04310001#32, commandWrite 0x05027000#32, commandWrite 0x05137000#32,
       commandWrite 0x07201000#32] := by decide

/-! ### GEN -/

/-- Vector G1. -/
theorem test_gen_G1 :
    ((nextOf (exec .gen (genState 3#32 8#32 4#32))).map fun t => (t.mem.sym.contents, t.prsgS)) =
      some (some [1#32, 0#32, 2#32, 1#32, 0#32, 2#32, 2#32, 0#32], 4#32) := by decide

/-- Vector G17: PARAM before CAPACITY. -/
theorem test_gen_G17 :
    faultOf (exec .gen (genState 3#32 17#32 0#32)) = some (6#32, 1#32, 0#32) := by decide

/-! ### KSYN, with the test functions of section 2.2 -/

def testBody (a _t _beta : Word) : Word := F32.add a 0x40400000#32
def testLimit (_t _beta : Word) : Word := 0x40E00000#32
def testSynth (beta d : Word) (n : Nat) (norm : Bool) : Except Raise (List Word) :=
  synthesize testBody testLimit 0x3D4CCCCD#32 0x3F800000#32 beta d n norm

/-- Vectors K2 (normalised) and K6 (window). -/
theorem test_ksyn_K2_K6 :
    testSynth 0x3C23D70A#32 0x40000000#32 4 true =
      .ok [0x3DCCCCCD#32, 0x3E4CCCCD#32, 0x3E99999A#32, 0x3ECCCCCD#32] ∧
    testSynth 0x3F000000#32 0x40000000#32 4 false =
      .ok [0x3F800000#32, 0x40E00000#32, 0x40400000#32, 0x40E00000#32] := by decide +kernel

/-- Vectors K8 (stage 0) and K9 (stage 1): fault word, pattern, grid point. -/
theorem test_ksyn_K8_K9 :
    ((testSynth 0x3C23D70A#32 0x40C00000#32 4 false).toOption = none ∧
      testSynth 0x3C23D70A#32 0x40C00000#32 4 false =
        .error { code := .ktapDegenerate, info0 := 0#32, info1 := 0xC0400000#32, aux := 1#24 } ∧
      faultWord 1#24 .ktapDegenerate = 0x00000104#32) ∧
    (testSynth 0x3C23D70A#32 0x40C00000#32 2 true =
        .error { code := .ktapDegenerate, info0 := 0xFF800000#32, info1 := 0xC0C00000#32
                 aux := 0x800000#24 } ∧
      faultWord 0x800000#24 .ktapDegenerate = 0x80000004#32) := by decide +kernel

/-- The kernels of K2, K8 and K9 in the reference reading: exact tenths; an exact zero tap; a tap sum of 0
(entry 26). -/
theorem test_ksyn_reference :
    Reference.ksyn (K := ℚ) (fun a _ _ => a + 3) (fun _ _ => 7) (1/20) 1 (1/100) 2 4 true =
      .value [1/10, 1/5, 3/10, 2/5] ∧
    Reference.ksyn (K := ℚ) (fun a _ _ => a + 3) (fun _ _ => 7) (1/20) 1 (1/100) 6 4 false =
      .fault .ktapDegenerate 1 ∧
    Reference.ksyn (K := ℚ) (fun a _ _ => a + 3) (fun _ _ => 7) (1/20) 1 (1/100) 6 2 true = .noValue := by
  decide +kernel

/-! ### CONV and VMUL -/

/-- Vectors CV2 and CV3, in the reference reading (R197). -/
theorem test_conv_CV2_CV3 :
    Reference.convolve (K := ℚ) [1, 0, 0, 2] [1, 2, 1] = .value [1/2, 1/4, 1/2, 1, 1/2] ∧
    Reference.convolve (K := ℚ) [0, 0, 1, 0] [1, 2, 3, 4] = .value [1/10, 1/5, 3/10, 2/5, 0] := by
  decide +kernel

/-- The operands of vector CV12: the tap sum is 0, and the exact quotients have no value (entry 26). Vector PL1, the
I branch: a ramp, ones, a ramp (47_pipeline_macros.md R310). -/
theorem test_conv_CV12_PL1 :
    Reference.convolve (K := ℚ) [1, 2, 3] [1, -1] = .noValue ∧
    Reference.convolve (K := ℚ) (List.replicate 10 1) [1, 2, 1] =
      .value [3/4, 1, 1, 1, 1, 1, 1, 1, 1, 3/4, 1/4] := by decide +kernel

/-- Vector PL1, MIX at a quarter of the sample rate: the first four samples (44_quadrature_mixer.md R259). -/
theorem test_mix_PL1 :
    Reference.mix 2 8 [3/4, 1, 1, 1] [0, 0, 0, 0] = .value [0, 1, 0, -1] := by
  have h := Reference.mix_quarter (fs := 8) (by decide) (3/4) 1 1 1 0 0 0 0
  norm_num at h
  exact h

/-- Vector CV9: one sample and one tap. -/
theorem test_conv_CV9 :
    faultOf (exec (.conv 2 0 1) (load [0x40400000#32] [0x40800000#32] [])) =
      some (3#32, 1#32, 1#32) := by decide +kernel

/-- Vector VM1. -/
theorem test_vmul_VM1 :
    vOf 0 (exec (.vmul 0 1) (load [0x40000000#32, 0x40400000#32, 0x40800000#32]
      [0x40A00000#32, 0x40C00000#32, 0x40E00000#32] [])) =
        some [0x41200000#32, 0x41900000#32, 0x41E00000#32] := by decide +kernel

/-- Vectors VM5 (its first two samples: overflow and the sign of a zero) and VM6 (a subnormal result). -/
theorem test_vmul_VM5_VM6 :
    vOf 0 (exec (.vmul 0 1) (load [0x7F7FFFFF#32, 0x80000000#32, 0x00800000#32]
      [0x40000000#32, 0x40A00000#32, 0x3F000000#32] [])) =
        some [0x7F800000#32, 0x80000000#32, 0x00400000#32] := by decide +kernel

/-! ### MAP and STRETCH -/

/-- Vector M4, the Q branch after the header. -/
theorem test_map_M4 :
    vOf 1 (exec (.map 0 1 false) (loadSym [0#32, 1#32, 2#32, 3#32])) =
      some (List.replicate 8 0#32 ++ [0#32, 0x3F800000#32, 0#32, 0xBF800000#32]) := by decide +kernel

/-- Vector M5, the I branch: M2, then indices 8 to 11. -/
theorem test_map_M5 :
    vOf 0 (exec (.map 0 1 true) (loadSym [0#32, 1#32, 2#32, 3#32])) =
      some [0x3F3504F3#32, 0x3F800000#32, 0x3F3504F3#32, 0x3F800000#32, 0x3F3504F3#32,
        0x3F800000#32, 0x3F3504F3#32, 0x3F800000#32, 0x3F3504F3#32, 0#32, 0xBF3504F3#32, 0#32] := by
  decide +kernel

/-- Vectors ST3 and ST4: the last sample takes the remainder. -/
theorem test_stretch_ST3_ST4 :
    vOf 1 (exec (.stretch 1 0 false) (withLengths (load [7#32, 8#32, 9#32] [] []) 10#32 0#32 0#32)) =
      some [7#32, 7#32, 7#32, 8#32, 8#32, 8#32, 9#32, 9#32, 9#32, 9#32] ∧
    vOf 1 (exec (.stretch 1 0 false) (withLengths (load [7#32, 8#32, 9#32] [] []) 2#32 0#32 0#32)) =
      some [9#32, 9#32] := by decide +kernel

/-- Vectors ST7 (in place, with the header count) and ST12 (no wrap of the desired length). -/
theorem test_stretch_ST7_ST12 :
    vOf 0 (exec (.stretch 0 0 true) (withLengths (load [7#32, 8#32] [] []) 1#32 8#32 16#32)) =
      some [7#32, 7#32, 8#32, 8#32, 8#32] ∧
    faultOf (exec (.stretch 1 0 true) (withLengths (load [7#32] [] []) 0xFFFFFFFF#32 0xFFFFFFFF#32
      1#32)) = some (5#32, 0xFFFFFFFF#32, 16#32) := by decide +kernel

/-! ### MIX and VACC -/

/-- Vector MX1: with a carrier of 0 the Q branch. -/
theorem test_mix_MX1 :
    vOf 2 (exec (.mix 2 0 1)
      ((load [0x3F800000#32, 0x40000000#32, 0x40400000#32]
        [0x40800000#32, 0x40A00000#32, 0x40C00000#32] []).setParams
          { ParamRegs.zero with fs := 8000#32 })) =
        some [0x40800000#32, 0x40A00000#32, 0x40C00000#32] := by decide +kernel

/-- Vector MX9: the phase. -/
theorem test_mix_MX9 :
    theta 0x447A0000#32 8000#32 0 = 0x00000000#32 ∧ theta 0x447A0000#32 8000#32 1 = 0x3F490FDB#32 := by
  decide +kernel

/-- Vectors VA1 and VA7 (in one register). -/
theorem test_vacc_VA1_VA7 :
    vOf 0 (exec (.vacc 0 1 false) (load [0x3FC00000#32, 0x40200000#32]
      [0x3F000000#32, 0xC0200000#32] [])) = some [0x40000000#32, 0x00000000#32] ∧
    vOf 0 (exec (.vacc 0 0 false) (load [0x3F800000#32, 0x40000000#32] [] [])) =
      some [0x40000000#32, 0x40800000#32] := by decide +kernel

/-- Vectors VA2 (a copy, whatever the lengths) and VA8 (ties to even). -/
theorem test_vacc_VA2_VA8 :
    vOf 0 (exec (.vacc 0 1 true) (load [9#32, 9#32, 9#32] [0x3F800000#32, 0x80000000#32] [])) =
      some [0x3F800000#32, 0x80000000#32] ∧
    vOf 0 (exec (.vacc 0 1 false) (load [0x4B800000#32] [0x3F800000#32] [])) =
      some [0x4B800000#32] := by decide +kernel

/-! ### QUANT -/

/-- Vector Q1: the third sample wraps. -/
theorem test_quant_Q1 :
    ((nextOf (exec (.quant 0) (withGain (load [0x3F000000#32, 0xBFA00000#32, 0x42200000#32] [] [])
      0x447A0000#32))).bind fun t => t.mem.aud.contents) = some [500#16, 0xFB1E#16, 0x9C40#16] := by
  decide +kernel

/-- Vector Q9 (the range), and Q2 in both readings of `QROUND`. -/
theorem test_quant_Q9_Q2 :
    faultOf (exec (.quant 0) (withGain (load [0x3F800000#32, 0x7149F2CA#32] [] []) 0x7149F2CA#32)) =
      some (8#32, 0#32, 0x7149F2CA#32) ∧
    F32.toInt .trunc 0x3FC00000#32 = 1 ∧ F32.toInt .nearestEven 0x3FC00000#32 = 2 := by decide +kernel

/-- Vector Q1 on exact products; and 2.5 and 3.5 to the nearest, ties to even (46_fixed_point_quantizer.md R281). -/
theorem test_quant_reference :
    Reference.quant (K := ℚ) .trunc 1000 [1/2, -5/4, 40] = .value [500#16, 0xFB1E#16, 0x9C40#16] ∧
    Reference.toInt (K := ℚ) .nearestEven (5/2) = 2 ∧ Reference.toInt (K := ℚ) .nearestEven (7/2) = 4 ∧
    Reference.toInt (K := ℚ) .trunc (-5/2) = -2 ∧
    Reference.vals (K := ℚ) [0x3F000000#32, 0xBFA00000#32] = some [1/2, -5/4] ∧
    Reference.val (K := ℚ) 0x7F800000#32 = none := by decide +kernel

/-! ### The sinc helper, the host port, reset -/

/-- Vector K10: the clamp, equality included. -/
theorem test_sinc_K10 :
    F32.sinc 0#32 = 0x3F800000#32 ∧ F32.sinc 0x3C23D70A#32 = 0x3F800000#32 ∧
    F32.sinc 0xBC23D70A#32 = 0x3F800000#32 := by decide +kernel

/-- Vectors H1, H2, H5, H6, H7, H13, H18 (with `VLMAX` = 16). -/
theorem test_port_reads :
    replyOf (step (pending blank [.read 0x000#32 4])) = some (.data 0x50525347#32) ∧
    replyOf (step (pending blank [.read 0x004#32 4])) = some (.portError .writeOnly) ∧
    replyOf (step (pending blank [.read 0x024#32 4])) = some (.portError .unmapped) ∧
    replyOf (step (pending blank [.read 0x042#32 4])) = some (.portError .misaligned) ∧
    replyOf (step (pending blank [.read 0x040#32 2])) = some (.portError .width) ∧
    replyOf (step (pending blank [.read 0x10000040#32 4])) = some (.portError .indexRange) ∧
    replyOf (step (pending blank [.read 0x40000000#32 4])) = some (.portError .unmapped) := by
  decide +kernel

/-- Vectors H3, H10, H14, H19. -/
theorem test_port_writes :
    replyOf (step (pending blank [.write 0x000#32 4 1#32])) = some (.portError .readOnly) ∧
    replyOf (step (pending blank [.write 0x080#32 4 17#32])) = some (.portError .lengthRange) ∧
    replyOf (step (pending blank [.write 0x30000000#32 4 0#32])) = some (.portError .readOnly) ∧
    nextOf (step (pending blank [.write 0x020#32 4 2#32])) = some (blank.respond .ack) := by
  decide +kernel

/-- The outcomes of 60_exceptions.md R337 on four hosts' steps: completed, faulted, port error, refused by the
model. -/
theorem test_outcomes_R337 :
    (∃ t, Completed (pending (convState 2 2) [commandWrite 0x06010000#32]) t) ∧
    (∃ t, Faulted (pending (convState 2 1) [commandWrite 0x06010000#32]) t) ∧
    (∃ t, PortRefused (pending blank [.write 0x000#32 4 1#32]) t) ∧
    RefusedByModel (pending unwritten [commandWrite 0x08010001#32]) := by
  refine ⟨⟨_, ⟨nofun, rfl⟩, .inl rfl, ?_⟩, ⟨_, rfl, rfl, _, _, rfl, _, rfl, rfl⟩,
    ⟨_, rfl, _, _, _, rfl, rfl⟩, rfl⟩
  intro w rest _
  exact ⟨rfl, rfl, rfl⟩

/-- Vector H11, three transactions. -/
theorem test_port_H11 :
    replyOf (Host.Core.run Sys2Proof.core 3 (pending blank
      [.write 0x10000008#32 4 0x3F800000#32, .write 0x080#32 4 3#32, .read 0x10000008#32 4])) =
        some (.data 0x3F800000#32) := by decide +kernel

/-- Vector RS4: KSYN straight after reset completes with no tap. -/
theorem test_reset_RS4 :
    ((nextOf (step (pending blank [command (.ksyn 7 false)]))).map fun t => (t.vlength 7, t.cmdcnt)) =
      some (0, 1#32) := by decide +kernel

/-- The host's load interface: the word is the next event served (entry 1). -/
theorem test_withFetchWord :
    ((nextOf (step (State.reset.withFetchWord 32 0x06010000))).map fun t => t.cmdcnt) = some 1#32 := by
  decide +kernel

/-! ### Witnesses: for each statement with hypotheses, a state and operands that meet them, clause by clause -/

theorem witness_PinResetGivesResetState : (pending faulty [.rst]).inbox = .rst :: [] := by decide

theorem witness_ControlWriteResetsOnBitZero :
    (pending faulty [.write 0x020#32 4 3#32]).inbox = .write 0x020#32 4 3#32 :: [] ∧
    (3#32 : Word).getLsbD 0 = true ∧ (0xFFFFFFFE#32 : Word).getLsbD 0 = false := by decide

theorem witness_StepRunsDecodedCommand :
    (pending blank [commandWrite 0x06010000#32]).inbox = .write 0x004#32 4 0x06010000#32 :: [] ∧
    (pending blank [commandWrite 0x06010000#32]).fr.faulted = false ∧
    decode 0x06010000#32 = .ok (.vmul 0 1) := by decide

theorem witness_IllegalWordFaults :
    (pending blank [commandWrite 0#32]).inbox = .write 0x004#32 4 0#32 :: [] ∧
    (pending blank [commandWrite 0#32]).fr.faulted = false ∧
    decode 0#32 = .error .unknownOpcode := by decide

theorem witness_CommandIgnoredUnderFault :
    (pending faulty [commandWrite 0#32]).inbox = .write 0x004#32 4 0#32 :: [] ∧
    (pending faulty [commandWrite 0#32]).fr.faulted = true := by decide

theorem witness_EncodedCommandsDecodeBack : (Instr.map 7 0 true).wellFormed = true := by decide

theorem witness_DecodedWordsEncodeBack : decode 0x07777000#32 = .ok (.mix 7 7 7) := by decide

theorem witness_DecoderFollowsMatchAndMask :
    (0x03010001#32 : Word) &&& 0xFF88FFFE#32 = 0x03000000#32 ∧
    bits 0x03010001#32 23 20 ≠ bits 0x03010001#32 19 16 := by decide

/-- A count equal to the capacity, and a count of 0. -/
theorem witness_GenWritesSquaringSequence :
    (genState 3#32 16#32 4#32).p.modulus ≠ 0#32 ∧
    (genState 3#32 16#32 4#32).p.count.toNat ≤ (genState 3#32 16#32 4#32).inst.vlmax ∧
    (genState 3#32 0#32 4#32).p.count.toNat ≤ (genState 3#32 0#32 4#32).inst.vlmax := by decide

theorem witness_GenZeroModulusFaults : (genState 3#32 8#32 0#32).p.modulus = 0#32 := by decide

theorem witness_GenCountBeyondCapacityFaults :
    (genState 3#32 17#32 4#32).p.modulus ≠ 0#32 ∧
    (genState 3#32 17#32 4#32).inst.vlmax < (genState 3#32 17#32 4#32).p.count.toNat := by decide

theorem witness_GenSymbolsBelowModulus :
    (genState 3#32 8#32 4#32).p.modulus ≠ 0#32 ∧
    (genState 3#32 8#32 4#32).p.count.toNat ≤ (genState 3#32 8#32 4#32).inst.vlmax ∧
    (nextOf (exec .gen (genState 3#32 8#32 4#32))).isSome = true ∧
    (4#32 : Word).toNat ≤ (genState 3#32 8#32 4#32).p.count.toNat := by decide

/-- With `KN` = 0 (vector K7); for other counts the kernel functions are OPEN and KsynRunsSynthesis is the statement
that applies. -/
theorem witness_KsynStoresTapsOfTheGrid :
    blank.p.kn.toNat ≤ blank.inst.vlmax ∧
    taps Config.kbody Config.klimit blank.inst.ksynTol blank.p.kt blank.p.kbeta blank.p.kd
      blank.p.kn.toNat = [] := by decide

def kernelState (kn : Word) : State := blank.setParams { ParamRegs.zero with kn := kn }

theorem witness_KsynTapCountBeyondCapacityFaults :
    (kernelState 17#32).inst.vlmax < (kernelState 17#32).p.kn.toNat := by decide

theorem witness_KsynRunsSynthesis :
    (kernelState 16#32).p.kn.toNat ≤ (kernelState 16#32).inst.vlmax := by decide

def testTaps (d : Word) (n : Nat) : List Word :=
  taps testBody testLimit 0x3D4CCCCD#32 0x3F800000#32 0x3C23D70A#32 d n

/-- Vector K8: tap 1 is zero. -/
theorem witness_SynthesisFaultsAtFirstComputedTap :
    1 < 4 ∧ (∀ j, j < 1 → F32.isNormal ((testTaps 0x40C00000#32 4).getD j 0#32) = true) ∧
    F32.isNormal ((testTaps 0x40C00000#32 4).getD 1 0#32) = false := by decide +kernel

/-- Vector K9: the sum of the taps is zero. -/
theorem witness_SynthesisFaultsAtFirstNormalisedTap :
    0 < 2 ∧ (∀ x ∈ testTaps 0x40C00000#32 2, F32.isNormal x = true) ∧
    (∀ j, j < 0 → F32.isNormal (((testTaps 0x40C00000#32 2).map fun x =>
      F32.div x (leftSum (testTaps 0x40C00000#32 2))).getD j 0#32) = true) ∧
    F32.isNormal (((testTaps 0x40C00000#32 2).map fun x =>
      F32.div x (leftSum (testTaps 0x40C00000#32 2))).getD 0 0#32) = false :=
  ⟨by decide, List.all_eq_true.mp (by decide +kernel), fun _ h => absurd h (Nat.not_lt_zero _),
    by decide +kernel⟩

/-- Vector K1. -/
theorem witness_SynthesisedTapsAreNormal :
    testSynth 0x3C23D70A#32 0x40000000#32 4 false =
      .ok [0x3F800000#32, 0x40000000#32, 0x40400000#32, 0x40800000#32] := by decide +kernel

theorem witness_KsynDependsOnItsParametersOnly :
    (kernelState 4#32).p.kt = (withGain (kernelState 4#32) 1#32).p.kt ∧
    (kernelState 4#32).p.kbeta = (withGain (kernelState 4#32) 1#32).p.kbeta ∧
    (kernelState 4#32).p.kd = (withGain (kernelState 4#32) 1#32).p.kd ∧
    (kernelState 4#32).p.kn = (withGain (kernelState 4#32) 1#32).p.kn ∧
    (kernelState 4#32).inst = (withGain (kernelState 4#32) 1#32).inst ∧
    kernelState 4#32 ≠ withGain (kernelState 4#32) 1#32 := by decide

/-- Eight symbols fill the capacity of 16. -/
theorem witness_MapWritesBothBranches :
    (0 : VReg) ≠ 1 ∧
    (loadSym (List.replicate 8 3#32)).mem.sym.contents = some (List.replicate 8 3#32) ∧
    8 + (loadSym (List.replicate 8 3#32)).mem.sym.len ≤
      (loadSym (List.replicate 8 3#32)).inst.vlmax := by decide

theorem witness_MapBeyondCapacityFaults :
    (0 : VReg) ≠ 1 ∧ (loadSym (List.replicate 9 3#32)).inst.vlmax <
      8 + (loadSym (List.replicate 9 3#32)).mem.sym.len := by decide

def stretchState (vlen fs baud : Word) : State := withLengths (load [7#32, 8#32] [] []) vlen fs baud

/-- A result that fills the capacity, with and without the flag. -/
theorem witness_StretchHoldsSamples :
    ((true = true → (stretchState 12#32 8#32 16#32).p.baud ≠ 0#32) ∧
      (stretchState 12#32 8#32 16#32).source 0 = some [7#32, 8#32] ∧
      desired (stretchState 12#32 8#32 16#32) true ≤ (stretchState 12#32 8#32 16#32).inst.vlmax) ∧
    ((false = true → (stretchState 16#32 0#32 0#32).p.baud ≠ 0#32) ∧
      (stretchState 16#32 0#32 0#32).source 0 = some [7#32, 8#32] ∧
      desired (stretchState 16#32 0#32 0#32) false ≤ (stretchState 16#32 0#32 0#32).inst.vlmax) := by
  decide

/-- One state per fault, in their order: `BAUD` = 0; an empty source; a result one above the capacity. -/
theorem witness_StretchFaultsInOrder :
    (stretchState 1#32 8#32 0#32).p.baud = 0#32 ∧
    ((stretchState 1#32 8#32 16#32).p.baud ≠ 0#32 ∧ (stretchState 1#32 8#32 16#32).vlength 1 = 0) ∧
    ((stretchState 13#32 8#32 16#32).p.baud ≠ 0#32 ∧ (stretchState 13#32 8#32 16#32).vlength 0 ≠ 0 ∧
      (stretchState 13#32 8#32 16#32).inst.vlmax < desired (stretchState 13#32 8#32 16#32) true) := by
  decide

/-- The shortest operands, and a result that fills the capacity. -/
theorem witness_ConvDividesShiftedProduct :
    ((convState 1 2).source 0 = some [0x3F800000#32] ∧
      (convState 1 2).source 1 = some [0x3F800000#32, 0x3F800000#32] ∧
      2 ≤ 1 + 2 - 1 ∧ 1 + 2 - 1 - 2 / 2 ≤ (convState 1 2).inst.vlmax) ∧
    ((convState 15 4).vlength 0 = 15 ∧ ((convState 15 4).source 0).isSome = true ∧
      ((convState 15 4).source 1).isSome = true ∧ 15 + 4 - 1 - 4 / 2 ≤ (convState 15 4).inst.vlmax) := by
  decide

theorem witness_ConvDegenerateLengthsFault :
    (convState 0 2).vlength 0 = 0 ∧ (convState 2 0).vlength 1 = 0 ∧
    ((convState 1 1).vlength 0 = 1 ∧ (convState 1 1).vlength 1 = 1) := by decide

theorem witness_ConvBeyondCapacityFaults :
    (convState 16 4).vlength 0 ≠ 0 ∧ (convState 16 4).vlength 1 ≠ 0 ∧
    2 ≤ (convState 16 4).vlength 0 + (convState 16 4).vlength 1 - 1 ∧
    (convState 16 4).inst.vlmax <
      (convState 16 4).vlength 0 + (convState 16 4).vlength 1 - 1 - (convState 16 4).vlength 1 / 2 := by
  decide

theorem witness_ConvLengthIsValidPrefix :
    FaultFree (convState 2 1) ∧
    ∃ t, exec (.conv 2 0 1) (convState 2 1) = .next t ∧ FaultFree t := by
  exact ⟨rfl, _, rfl, rfl⟩

theorem witness_VmulMultipliesInPlace :
    (convState 2 2).source 0 = some [0x3F800000#32, 0x3F800000#32] ∧
    (convState 2 2).source 1 = some [0x3F800000#32, 0x3F800000#32] := by decide

theorem witness_MixModulatesCarrier :
    (convState 16 16).source 0 = some (List.replicate 16 0x3F800000#32) ∧
    (convState 16 16).source 1 = some (List.replicate 16 0x3F800000#32) := by decide

/-- With `I` the lengths may differ; without it they are equal. -/
theorem witness_VaccAddsOrCopies :
    (convState 3 1).source 1 = some [0x3F800000#32] ∧
    ((convState 1 1).source 1 = some [0x3F800000#32] ∧
      (convState 1 1).source 0 = some [0x3F800000#32]) := by decide

theorem witness_LengthMismatchFaults :
    (convState 2 1).vlength 0 ≠ (convState 2 1).vlength 1 ∧
    (convState 0 1).vlength 0 ≠ (convState 0 1).vlength 1 := by decide

def quantState (xs : List Word) : State := withGain (load xs [] []) 0x3F800000#32

/-- The largest F32 below 2^31, and -2^31 itself. -/
theorem witness_QuantWrapsProducts :
    (quantState [0x4EFFFFFF#32, 0xCF000000#32]).source 0 = some [0x4EFFFFFF#32, 0xCF000000#32] ∧
    ∀ x ∈ [(0x4EFFFFFF#32 : Word), 0xCF000000#32],
      convertible .trunc (F32.mul (quantState []).p.gain x) := by
  simp only [convertible, List.forall_mem_cons, List.not_mem_nil, false_imp_iff, implies_true]
  decide +kernel

/-- After a good sample: +infinity, and 2^31. -/
theorem witness_QuantFaultsAtFirstBadSample :
    ((quantState [0x3F800000#32, 0x7F800000#32]).vreg 0).element? 1 = some 0x7F800000#32 ∧
    (∀ j, j < 1 → ((quantState [0x3F800000#32, 0x7F800000#32]).vreg 0).element? j =
      some 0x3F800000#32) ∧
    convertible .trunc (F32.mul 0x3F800000#32 0x3F800000#32) ∧
    F32.isFinite (F32.mul 0x3F800000#32 0x7F800000#32) = false ∧
    ((quantState [0x4F000000#32]).vreg 0).element? 0 = some 0x4F000000#32 ∧
    F32.isFinite (F32.mul 0x3F800000#32 0x4F000000#32) = true ∧
    ¬ convertible .trunc (F32.mul 0x3F800000#32 0x4F000000#32) := by
  unfold convertible
  decide +kernel

/-- The tie clause: 0.5 and -2.5 lie half way. -/
theorem witness_IntegerConversionRoundsAsSelected :
    2 * (2 ^ 149 * F32.toInt .nearestEven 0x3F000000#32 - F32.scaled 0x3F000000#32).natAbs =
      2 ^ 149 ∧
    2 * (2 ^ 149 * F32.toInt .nearestEven 0xC0200000#32 - F32.scaled 0xC0200000#32).natAbs =
      2 ^ 149 := by decide +kernel

/-- `v1` of length 3 with its last element never written; its first two are 1.0 and 1.0. -/
def lastUnwritten : State :=
  withGain (withLengths (blank.setV 1 ((Buffer.ofList [0x3F800000#32, 0x3F800000#32]).setLen 3))
    2#32 0#32 0#32) 0x3F800000#32

/-- `unwritten` has two elements without a value in `v1` and in `SYM`; the other registers are empty. For the last
two clauses: an output shorter than the source, and two samples that convert before the unwritten one. -/
theorem witness_UnwrittenOperandsAreRefused :
    (unwritten.source 1 = none ∧ unwritten.vlength 1 = unwritten.vlength 1) ∧
    unwritten.vlength 1 ≠ 0 ∧ 2 ≤ unwritten.vlength 1 + unwritten.vlength 1 - 1 ∧
    unwritten.vlength 1 + unwritten.vlength 1 - 1 - unwritten.vlength 1 / 2 ≤ unwritten.inst.vlmax ∧
    (unwritten.mem.sym.contents = none ∧ 8 + unwritten.mem.sym.len ≤ unwritten.inst.vlmax) ∧
    ((withLengths unwritten 2#32 0#32 0#32).source 1 = none ∧
      (withLengths unwritten 2#32 0#32 0#32).vlength 1 ≤
        desired (withLengths unwritten 2#32 0#32 0#32) false ∧
      desired (withLengths unwritten 2#32 0#32 0#32) false ≤ unwritten.inst.vlmax) ∧
    ((lastUnwritten.vreg 1).element? (lastUnwritten.vlength 1 - 1) = none ∧
      desired lastUnwritten false = 2 ∧ lastUnwritten.vlength 1 = 3 ∧ 2 ≤ lastUnwritten.inst.vlmax) ∧
    ((lastUnwritten.vreg 1).element? 2 = none ∧
      (lastUnwritten.vreg 1).element? 0 = some 0x3F800000#32 ∧
      (lastUnwritten.vreg 1).element? 1 = some 0x3F800000#32 ∧
      convertible lastUnwritten.inst.qround (F32.mul lastUnwritten.p.gain 0x3F800000#32)) := by
  unfold convertible
  decide +kernel

theorem witness_CommandsEndWhenElementsAreWritten :
    (∀ j, ((convState 3 2).source j).isSome = true) ∧
    (convState 3 2).mem.sym.contents.isSome = true := by decide

/-- A command that completes and one that faults. -/
theorem witness_CommandsFaultPreciselyOrCount :
    (∃ t, exec (.vmul 0 1) (convState 2 2) = .next t ∧ t.fr.faulted = false) ∧
    (∃ t, exec (.vmul 0 1) (convState 2 1) = .next t ∧ t.fr.faulted = true) := by
  exact ⟨⟨_, rfl, rfl⟩, ⟨_, rfl, rfl⟩⟩

theorem witness_CommandsWriteOnlyDestinations :
    (∃ t, exec (.vmul 0 1) (convState 2 2) = .next t) ∧ (1 : VReg) ∉ vectorDestinations (.vmul 0 1) ∧
    Instr.vmul 0 1 ≠ .gen ∧ ∀ rb, Instr.vmul 0 1 ≠ .quant rb := by
  exact ⟨⟨_, rfl⟩, by decide, by decide, by decide⟩

/-- In the fault state of `faulty`: the record, the status, and a length. -/
theorem witness_RegisterReadsAnswer :
    (pending faulty [registerRead .id]).inbox = registerRead .id :: [] ∧
    registerValue faulty .status = some 1#32 ∧ registerValue faulty .fault = some 2#32 ∧
    registerValue faulty .finfo0 = some 2#32 ∧ registerValue faulty .finfo1 = some 1#32 ∧
    registerValue faulty .fcmd = some 0x06010000#32 ∧ registerValue (convState 3 1) (.vl 0) = some 3#32 ∧
    registerValue faulty .cmd = none ∧
    (pending faulty [registerRead .ctrl]).inbox = registerRead .ctrl :: [] := by decide

theorem witness_ParameterWritesReadBack :
    ScalarReg.seed ∈ parameterRegs ∧ ScalarReg.kn ∈ parameterRegs ∧
    (pending blank [registerWrite .seed 0xDEADBEEF#32]).inbox = registerWrite .seed 0xDEADBEEF#32 :: [] := by
  decide

theorem witness_ReadOnlyWritesAreRefused :
    ScalarReg.id ∈ readOnlyRegs ∧ ScalarReg.audlen ∈ readOnlyRegs ∧
    (pending blank [registerWrite .status 0#32]).inbox = registerWrite .status 0#32 :: [] := by decide

theorem witness_LengthRegisterWrites :
    (pending blank [registerWrite (.vl 7) 16#32]).inbox = registerWrite (.vl 7) 16#32 :: [] ∧
    (pending blank [registerWrite .symlen 17#32]).inbox = registerWrite .symlen 17#32 :: [] ∧
    (16#32 : Word).toNat ≤ blank.inst.vlmax ∧ blank.inst.vlmax < (17#32 : Word).toNat := by decide

/-- The last element of the last vector register, beyond its length of 0; and the last element below the length
of a full register. -/
theorem witness_VectorWindowWrites :
    (blank.inst.vlmax ≤ 2 ^ 22 ∧ 15 < blank.inst.vlmax ∧ blank.vlength 7 ≤ 15 ∧
      (pending blank [.write 0x1700003C#32 4 1#32]).inbox =
        .write (BitVec.ofNat 32 (0x10000000 + 0x01000000 * 7 + 4 * 15)) 4 1#32 :: []) ∧
    ((convState 16 0).inst.vlmax ≤ 2 ^ 22 ∧ 15 < (convState 16 0).inst.vlmax ∧
      15 < (convState 16 0).vlength 0 ∧
      (pending (convState 16 0) [.write 0x1000003C#32 4 1#32]).inbox =
        .write (BitVec.ofNat 32 (0x10000000 + 0x01000000 * 0 + 4 * 15)) 4 1#32 :: []) := by decide

/-- An element beyond the length of 0, one below a length of 16, and the audio window. -/
theorem witness_SymbolAndAudioWindowWrites :
    (blank.inst.vlmax ≤ 2 ^ 22 ∧ 15 < blank.inst.vlmax ∧ blank.mem.sym.len ≤ 15 ∧
      (pending blank [.write 0x2000003C#32 4 1#32]).inbox =
        .write (BitVec.ofNat 32 (0x20000000 + 4 * 15)) 4 1#32 :: []) ∧
    (15 < (loadSym (List.replicate 16 3#32)).mem.sym.len ∧
      (pending (loadSym (List.replicate 16 3#32)) [.write 0x2000003C#32 4 1#32]).inbox =
        .write (BitVec.ofNat 32 (0x20000000 + 4 * 15)) 4 1#32 :: []) ∧
    (pending blank [.write 0x3000003C#32 4 1#32]).inbox =
      .write (BitVec.ofNat 32 (0x30000000 + 4 * 15)) 4 1#32 :: [] := by decide

theorem witness_WindowReadsAnswer :
    blank.inst.vlmax ≤ 2 ^ 22 ∧ 0 < blank.inst.vlmax ∧
    (pending blank [.read 0x10000000#32 4]).inbox =
      .read (BitVec.ofNat 32 (0x10000000 + 0x01000000 * 0 + 4 * 0)) 4 :: [] ∧
    (pending blank [.read 0x20000000#32 4]).inbox =
      .read (BitVec.ofNat 32 (0x20000000 + 4 * 0)) 4 :: [] ∧
    (pending blank [.read 0x30000000#32 4]).inbox =
      .read (BitVec.ofNat 32 (0x30000000 + 4 * 0)) 4 :: [] := by decide

theorem witness_PortErrorsChangeNothing :
    (pending blank [wr .id 1#32]).inbox = wr .id 1#32 :: [] ∧
    ∃ t, step (pending blank [wr .id 1#32]) = .next t ∧ t.reply = some (.portError .readOnly) := by
  exact ⟨by decide, _, rfl, rfl⟩

/-- One address per gap of the map, at both ends, and the first element beyond the capacity. -/
theorem witness_UnmappedTransactionsAreRefused :
    (∀ a ∈ [0x24, 0x3C, 0x74, 0x7C, 0xA8, 0x0FFFFFFC, 0x18000000, 0x1FFFFFFC, 0x21000000, 0x2FFFFFFC,
        0x31000000, 0xFFFFFFFC],
      (0x24 ≤ a ∧ a < 0x40) ∨ (0x74 ≤ a ∧ a < 0x80) ∨ (0xA8 ≤ a ∧ a < 0x10000000) ∨
      (0x18000000 ≤ a ∧ a < 0x20000000) ∨ (0x21000000 ≤ a ∧ a < 0x30000000) ∨ 0x31000000 ≤ a) ∧
    blank.inst.vlmax ≤ (0x10000040#32 : Word).toNat % 0x01000000 / 4 ∧
    (pending blank [.read 0x24#32 4]).inbox = .read 0x24#32 4 :: [] ∧
    (pending blank [.write 0x10000040#32 4 0#32]).inbox = .write 0x10000040#32 4 0#32 :: [] := by
  decide

/-- The second of the four regions. -/
theorem witness_HostBasePlacesMap :
    Params.valid { unit with hostBase := 0x40000000#32 } = true ∧
    2 ^ 30 - 1 < 2 ^ 30 ∧ (0x3FFFFFFF#32 : Word).toNat < (0x40000000#32 : Word).toNat ∧
    (0x40000000#32 : Word).toNat + 2 ^ 30 ≤ (0x80000000#32 : Word).toNat := by decide

theorem witness_OnlyResetLeavesFaultState :
    (pending faulty [.rst]).fr.faulted = true ∧
    ∃ t, step (pending faulty [.rst]) = .next t ∧ t.fr ≠ (pending faulty [.rst]).fr := by
  exact ⟨rfl, _, rfl, by decide⟩

theorem witness_FaultOutRaisedByCommandOnly :
    faultOut (pending blank [commandWrite 0#32]) = false ∧
    ∃ t, step (pending blank [commandWrite 0#32]) = .next t ∧ faultOut t = true := by
  exact ⟨rfl, _, rfl, rfl⟩

/-- A state of the invariant that is not the reset state, and a step from it. -/
theorem witness_StepKeepsInvariant :
    BlockInvariant (pending (convState 2 1) [commandWrite 0x06010000#32]) ∧
    ∃ t, step (pending (convState 2 1) [commandWrite 0x06010000#32]) = .next t := by
  exact ⟨⟨by decide, by decide, by decide, by decide, by decide⟩, _, rfl⟩

theorem witness_TrigonometryHasNamedProperties :
    F32.isFinite 0x7F7FFFFF#32 = true ∧ F32.isFinite 0x7F800000#32 = false := by decide

theorem witness_SmallNaturalsConvertExactly :
    2 ^ 24 ≤ 2 ^ 24 ∧ F32.ofNat (2 ^ 24) = 0x4B800000#32 := by decide +kernel

/-- The last ratio that stays finite and the first that does not; and a tie: 2^24 + 1 lies half way between the
values of 0x01000000 and 0x01000001, and the even pattern is taken. -/
theorem witness_RoundingPicksNearest :
    0 < 1 ∧ F32.flMag ((2 ^ 25 - 1) * 2 ^ 252 - 1) 1 < F32.infMagnitude ∧
    F32.isFinite 0x7F7FFFFF#32 = true ∧
    F32.flMag ((2 ^ 25 - 1) * 2 ^ 252) 1 = F32.infMagnitude ∧
    F32.flMag (2 ^ 24 + 1) 1 = 0x01000000 ∧ F32.isFinite 0x01000001#32 = true ∧
    F32.magnitude 0x01000001#32 ≠ F32.flMag (2 ^ 24 + 1) 1 ∧
    F32.scaledMag 0x01000000#32 = 2 ^ 24 ∧ F32.scaledMag 0x01000001#32 = 2 ^ 24 + 2 := by decide +kernel

/-- 1 + 2, 1 + -1, a quotient by a number and one by -0. -/
theorem witness_FiniteArithmeticRounds :
    F32.isFinite 0x3F800000#32 = true ∧ F32.isFinite 0x40000000#32 = true ∧
    F32.scaled 0x3F800000#32 + F32.scaled 0x40000000#32 ≠ 0 ∧
    F32.isFinite 0xBF800000#32 = true ∧
    F32.scaled 0x3F800000#32 + F32.scaled 0xBF800000#32 = 0 ∧
    F32.isZero 0x40000000#32 = false ∧
    F32.isFinite 0x80000000#32 = true ∧ F32.isZero 0x80000000#32 = true ∧
    F32.isZero 0x3F800000#32 = false := by decide +kernel

theorem witness_InvalidOperationsGiveNaN :
    F32.isNaN 0x7FC00000#32 = true ∧ F32.isZero 0#32 = true ∧ F32.isZero 0x80000000#32 = true ∧
    F32.isInf 0x7F800000#32 = true ∧ F32.isInf 0xFF800000#32 = true ∧
    F32.sign 0x7F800000#32 ≠ F32.sign 0xFF800000#32 := by decide

end Sys2Proof.Tests
end

section
/-! Facts about binary32 patterns and their values (spec 00_scope.md R11): the classes as ranges of the magnitude
pattern, and the value as a strictly increasing function of it. -/

namespace Sys2Proof.Machine.F32

/-! ### Classes as ranges of the magnitude pattern -/

theorem magnitude_lt (x : Word) : magnitude x < 2 ^ 31 := Nat.mod_lt _ (by decide)

theorem isZero_iff (x : Word) : isZero x = true ↔ magnitude x = 0 := by simp [isZero]

theorem isFinite_iff (x : Word) : isFinite x = true ↔ magnitude x < infMagnitude := by
  rw [isFinite, decide_eq_true_iff, expo, infMagnitude]
  omega

theorem isInf_iff (x : Word) : isInf x = true ↔ magnitude x = infMagnitude := by
  simp only [isInf, expo, frac, infMagnitude, Bool.and_eq_true, beq_iff_eq]
  omega

theorem isNaN_iff (x : Word) : isNaN x = true ↔ infMagnitude < magnitude x := by
  have hx := magnitude_lt x
  simp only [isNaN, expo, frac, infMagnitude, Bool.and_eq_true, beq_iff_eq, bne_iff_ne]
  omega

theorem isFinite_of_isZero {x : Word} (h : isZero x = true) : isFinite x = true := by
  rw [isZero_iff] at h
  rw [isFinite_iff, h]
  decide

theorem isInf_eq_false_of_isFinite {x : Word} (h : isFinite x = true) : isInf x = false := by
  rw [isFinite_iff] at h
  rw [Bool.eq_false_iff, Ne, isInf_iff]
  omega

theorem isNaN_eq_false_of_isFinite {x : Word} (h : isFinite x = true) : isNaN x = false := by
  rw [isFinite_iff] at h
  rw [Bool.eq_false_iff, Ne, isNaN_iff]
  omega

@[simp] theorem magnitude_neg (x : Word) : magnitude (neg x) = magnitude x :=
  magnitude_pack _ (magnitude_lt x)

theorem isFinite_neg (x : Word) : isFinite (neg x) = isFinite x := by
  rw [Bool.eq_iff_iff, isFinite_iff, isFinite_iff, magnitude_neg]

/-! ### The value as a function of the magnitude pattern -/

/-- `scaledMag` on bits 30:0 alone, continued past infinity, so that rounding can be described without regard to
overflow. -/
def magValue (m : Nat) : Nat :=
  if m / 2 ^ 23 = 0 then m % 2 ^ 23 else (2 ^ 23 + m % 2 ^ 23) * 2 ^ (m / 2 ^ 23 - 1)

theorem scaledMag_eq_magValue (x : Word) : scaledMag x = magValue (magnitude x) := rfl

/-- The binade `k` above the lowest normal one, both its ends included; binade 0 goes on down to the subnormals. -/
theorem magValue_binade {k j : Nat} (hlow : k = 0 ∨ 2 ^ 23 ≤ j) (hj : j ≤ 2 ^ 24) :
    magValue (2 ^ 23 * k + j) = j * 2 ^ k := by
  have hcases : (k = 0 ∧ j < 2 ^ 23) ∨ (2 ^ 23 ≤ j ∧ j < 2 ^ 24) ∨ j = 2 ^ 24 := by omega
  rcases hcases with ⟨rfl, hsub⟩ | ⟨hmin, hmax⟩ | rfl
  · have he : (2 ^ 23 * 0 + j) / 2 ^ 23 = 0 := by omega
    have hf : (2 ^ 23 * 0 + j) % 2 ^ 23 = j := by omega
    rw [magValue, if_pos he, hf, pow_zero, mul_one]
  · have he : (2 ^ 23 * k + j) / 2 ^ 23 = k + 1 := by omega
    have hf : 2 ^ 23 + (2 ^ 23 * k + j) % 2 ^ 23 = j := by omega
    rw [magValue, he, if_neg (by omega), hf, Nat.add_sub_cancel]
  · have he : (2 ^ 23 * k + 2 ^ 24) / 2 ^ 23 = k + 2 := by omega
    have hf : (2 ^ 23 * k + 2 ^ 24) % 2 ^ 23 = 0 := by omega
    rw [magValue, he, if_neg (by omega), hf, show k + 2 - 1 = k + 1 from rfl, pow_succ]
    ring

/-- Every pattern lies in a binade, and its successor in the same one or at its upper end. -/
theorem exists_binade (m : Nat) :
    ∃ k j, m = 2 ^ 23 * k + j ∧ (k = 0 ∨ 2 ^ 23 ≤ j) ∧ j < 2 ^ 24 :=
  ⟨m / 2 ^ 23 - 1, m - 2 ^ 23 * (m / 2 ^ 23 - 1), by omega, by omega, by omega⟩

theorem magValue_strictMono : StrictMono magValue := by
  refine strictMono_nat_of_lt_succ fun m => ?_
  obtain ⟨k, j, rfl, hlow, hj⟩ := exists_binade m
  have hsucc : magValue (2 ^ 23 * k + j + 1) = (j + 1) * 2 ^ k :=
    magValue_binade (hlow.imp_right Nat.le_succ_of_le) hj
  rw [hsucc, magValue_binade hlow hj.le]
  exact Nat.mul_lt_mul_of_pos_right (Nat.lt_succ_self j) (Nat.two_pow_pos k)

theorem magValue_infMagnitude : magValue infMagnitude = 2 ^ 24 * 2 ^ 253 :=
  magValue_binade (k := 253) (j := 2 ^ 24) (.inr (by decide)) le_rfl

theorem magValue_of_succ_eq_infMagnitude {m : Nat} (h : m + 1 = infMagnitude) :
    magValue m = (2 ^ 24 - 1) * 2 ^ 253 := by
  obtain rfl : m = 2 ^ 23 * 253 + (2 ^ 24 - 1) := Nat.succ.inj h
  exact magValue_binade (.inr (by decide)) (by decide)

/-- 0x3F800000 is the pattern of 1.0. -/
theorem magValue_one : magValue 0x3F800000 = 2 ^ 149 :=
  magValue_binade (k := 126) (j := 2 ^ 23) (.inr le_rfl) (by decide)

@[simp] theorem scaledMag_pack (b : Bool) {m : Nat} (h : m < 2 ^ 31) : scaledMag (pack b m) = magValue m := by
  rw [scaledMag_eq_magValue, magnitude_pack b h]

theorem isFinite_pack (b : Bool) {m : Nat} (h : m < infMagnitude) : isFinite (pack b m) = true := by
  rwa [isFinite_iff, magnitude_pack b (h.trans (by decide))]

/-- A binade up (or, below the normal binades, a shift of the fraction) doubles the value. -/
theorem exists_magValue_eq_two_mul (m : Nat) : ∃ m' ≤ m + 2 ^ 23, magValue m' = 2 * magValue m := by
  obtain ⟨k, j, rfl, hlow, hj⟩ := exists_binade m
  rw [magValue_binade hlow hj.le]
  by_cases hmin : 2 ^ 23 ≤ j
  · refine ⟨2 ^ 23 * (k + 1) + j, by omega, ?_⟩
    rw [magValue_binade (.inr hmin) hj.le, pow_succ]
    ring
  · obtain rfl : k = 0 := by omega
    refine ⟨2 ^ 23 * 0 + 2 * j, by omega, ?_⟩
    rw [magValue_binade (.inl rfl) (by omega)]
    ring

/-- A natural of at most 24 significant bits, times a power of two, is the value of a pattern. -/
theorem exists_magValue_eq_two_pow_mul {n : Nat} (hn : n ≤ 2 ^ 24) (a : Nat) :
    ∃ m ≤ 2 ^ 24 + 2 ^ 23 * a, magValue m = 2 ^ a * n := by
  induction a with
  | zero =>
    have hbase : magValue (2 ^ 23 * 0 + n) = n * 2 ^ 0 := magValue_binade (.inl rfl) hn
    exact ⟨2 ^ 23 * 0 + n, by omega, by rw [hbase, mul_comm]⟩
  | succ a ih =>
    obtain ⟨m, hm, hval⟩ := ih
    obtain ⟨m', hm', hval'⟩ := exists_magValue_eq_two_mul m
    refine ⟨m', ?_, ?_⟩
    · calc m' ≤ m + 2 ^ 23 := hm'
        _ ≤ 2 ^ 24 + 2 ^ 23 * a + 2 ^ 23 := Nat.add_le_add_right hm _
        _ = 2 ^ 24 + 2 ^ 23 * (a + 1) := by ring
    · rw [hval', hval, pow_succ]
      ring

end Sys2Proof.Machine.F32
end

section
/-! Rounding (spec 00_scope.md R11): `flMag` picks one of the two neighbouring patterns whose values enclose the
exact ratio. -/

namespace Sys2Proof.Machine.F32

/-- The binade `flMag` chooses: counted in its unit `2 ^ k`, the quotient has 24 bits, or fewer when `k` is 0. -/
theorem div_two_pow_binade (q : Nat) :
    (q.log2 - 23 = 0 ∨ 2 ^ 23 ≤ q / 2 ^ (q.log2 - 23)) ∧ q / 2 ^ (q.log2 - 23) < 2 ^ 24 := by
  have hpos : 0 < 2 ^ (q.log2 - 23) := Nat.two_pow_pos _
  constructor
  · refine or_iff_not_imp_left.2 fun hk => ?_
    have hq : q ≠ 0 := by rintro rfl; exact hk (by decide)
    rw [Nat.le_div_iff_mul_le hpos, ← pow_add, show 23 + (q.log2 - 23) = q.log2 by omega]
    exact Nat.log2_self_le hq
  · rw [Nat.div_lt_iff_lt_mul hpos, ← pow_add]
    calc q < 2 ^ (q.log2 + 1) := Nat.lt_log2_self
      _ ≤ 2 ^ (24 + (q.log2 - 23)) := Nat.pow_le_pow_right (by decide) (by omega)

/-- Rounding chooses between the neighbours `m` and `m + 1` around the exact ratio by its side of their midpoint,
and takes the even one on the midpoint itself. -/
theorem flMag_neighbours (n : Nat) {d : Nat} (hd : 0 < d) :
    ∃ m, magValue m * d ≤ n ∧ n < magValue (m + 1) * d ∧
      ((flMag n d = min m infMagnitude ∧ 2 * n ≤ magValue m * d + magValue (m + 1) * d ∧
          (2 * n = magValue m * d + magValue (m + 1) * d → m % 2 = 0)) ∨
       (flMag n d = min (m + 1) infMagnitude ∧ magValue m * d + magValue (m + 1) * d ≤ 2 * n ∧
          (2 * n = magValue m * d + magValue (m + 1) * d → m % 2 = 1))) := by
  obtain ⟨hlow, hj⟩ := div_two_pow_binade (n / d)
  have hfl : flMag n d = min (2 ^ 23 * ((n / d).log2 - 23) + rneDiv n (d * 2 ^ ((n / d).log2 - 23)))
      infMagnitude := rfl
  rw [hfl]
  rw [Nat.div_div_eq_div_mul] at hlow hj
  generalize (n / d).log2 - 23 = k at hlow hj ⊢
  have hrne := rneDiv_cases n (d * 2 ^ k)
  have hmod : n % (d * 2 ^ k) < d * 2 ^ k := Nat.mod_lt _ (Nat.mul_pos hd (Nat.two_pow_pos k))
  have hdiv := Nat.div_add_mod n (d * 2 ^ k)
  generalize n / (d * 2 ^ k) = j at *
  have hthis : magValue (2 ^ 23 * k + j) * d = d * 2 ^ k * j := by
    rw [magValue_binade hlow hj.le]; ring
  have hnext : magValue (2 ^ 23 * k + j + 1) * d = d * 2 ^ k * j + d * 2 ^ k := by
    rw [add_assoc, magValue_binade (hlow.imp_right Nat.le_succ_of_le) hj, Nat.succ_eq_add_one]; ring
  refine ⟨2 ^ 23 * k + j, ?_⟩
  rw [hthis, hnext]
  refine ⟨by omega, by omega, ?_⟩
  rcases hrne with ⟨hr, hside, htie⟩ | ⟨hr, hside, htie⟩
  · exact .inl ⟨by rw [hr], by omega, by omega⟩
  · exact .inr ⟨by rw [hr, add_assoc], by omega, by omega⟩

/-- A value that has a pattern is not changed by rounding. -/
theorem flMag_exact {m d : Nat} (hd : 0 < d) (hm : m ≤ infMagnitude) : flMag (magValue m * d) d = m := by
  obtain ⟨m', hle, hlt, hcase⟩ := flMag_neighbours (magValue m * d) hd
  have h1 : m' ≤ m := magValue_strictMono.le_iff_le.1 (Nat.le_of_mul_le_mul_right hle hd)
  have h2 : m < m' + 1 := magValue_strictMono.lt_iff_lt.1 (Nat.lt_of_mul_lt_mul_right hlt)
  obtain rfl : m' = m := by omega
  rcases hcase with ⟨hfl, -, -⟩ | ⟨-, hside, -⟩
  · rw [hfl, min_eq_left hm]
  · omega

/-- The values of two patterns keep their order when both are counted in units of `1 / d`. -/
theorem magValue_mul_le {a b : Nat} (h : a ≤ b) (d : Nat) : magValue a * d ≤ magValue b * d :=
  Nat.mul_le_mul_right d (magValue_strictMono.monotone h)

theorem magValue_mul_lt {a b d : Nat} (h : a < b) (hd : 0 < d) : magValue a * d < magValue b * d :=
  Nat.mul_lt_mul_of_pos_right (magValue_strictMono h) hd

/-- A finite rounded result is at least as near the exact ratio as the value of any pattern; a different pattern is
as near on a tie only, and then the result is even. -/
theorem flMag_nearest {n d : Nat} (hd : 0 < d) (hfin : flMag n d < infMagnitude) (c : Nat) :
    ((magValue (flMag n d) * d : Nat) - (n : Int)).natAbs ≤ ((magValue c * d : Nat) - (n : Int)).natAbs ∧
    (c ≠ flMag n d →
      ((magValue (flMag n d) * d : Nat) - (n : Int)).natAbs = ((magValue c * d : Nat) - (n : Int)).natAbs →
      flMag n d % 2 = 0) := by
  obtain ⟨m, hle, hlt, ⟨hfl, hside, htie⟩ | ⟨hfl, hside, htie⟩⟩ := flMag_neighbours n hd
  · obtain hm : flMag n d = m := by omega
    rw [hm]
    rcases Nat.lt_trichotomy c m with hc | rfl | hc
    · have := magValue_mul_lt hc hd
      omega
    · simp
    · have : magValue (m + 1) * d ≤ magValue c * d := magValue_mul_le hc d
      omega
  · obtain hm : flMag n d = m + 1 := by omega
    rw [hm]
    rcases Nat.lt_trichotomy c (m + 1) with hc | rfl | hc
    · have := magValue_mul_le (Nat.le_of_lt_succ hc) d
      omega
    · simp
    · have := magValue_mul_lt hc hd
      omega

/-- Overflow begins half a unit above the largest finite value: the pattern of infinity is even, so the midpoint
itself overflows. -/
theorem flMag_eq_infMagnitude_iff {n d : Nat} (hd : 0 < d) :
    flMag n d = infMagnitude ↔ (2 ^ 25 - 1) * 2 ^ 252 * d ≤ n := by
  obtain ⟨p, hp⟩ : ∃ p, p + 1 = infMagnitude := ⟨0x7F7FFFFF, rfl⟩
  have hinf : magValue infMagnitude * d = 2 ^ 24 * 2 ^ 253 * d := by rw [magValue_infMagnitude]
  have hmax : magValue p * d = (2 ^ 24 - 1) * 2 ^ 253 * d := by rw [magValue_of_succ_eq_infMagnitude hp]
  have heven : infMagnitude % 2 = 0 := by decide
  obtain ⟨m, hle, hlt, hcase⟩ := flMag_neighbours n hd
  generalize infMagnitude = top at *
  rcases Nat.lt_trichotomy m p with hm | rfl | hm
  · have hbelow : magValue (m + 1) * d ≤ magValue p * d := magValue_mul_le hm d
    have hfl : flMag n d ≠ top := by
      rcases hcase with ⟨hfl, -, -⟩ | ⟨hfl, -, -⟩ <;> omega
    omega
  · rw [hp] at hlt hcase
    rcases hcase with ⟨hfl, hside, htie⟩ | ⟨hfl, hside, htie⟩ <;> omega
  · have habove : magValue top * d ≤ magValue m * d := magValue_mul_le (hp ▸ hm) d
    have hfl : flMag n d = top := by
      rcases hcase with ⟨hfl, -, -⟩ | ⟨hfl, -, -⟩ <;> omega
    omega

end Sys2Proof.Machine.F32

namespace Sys2Proof.Machine

/-- Settles O57: such a count is the value of a pattern, which rounding keeps. -/
theorem smallNaturalsConvertExactly : Obligations.SmallNaturalsConvertExactly := by
  intro n hn
  obtain ⟨m, hm, hval⟩ := F32.exists_magValue_eq_two_pow_mul hn 149
  have hlt : m < F32.infMagnitude := by simp only [F32.infMagnitude]; omega
  have hlt31 : m < 2 ^ 31 := hlt.trans (by decide)
  have hfl : F32.flMag (2 ^ 149 * n) 1 = m := by
    rw [← hval, ← mul_one (F32.magValue m)]
    exact F32.flMag_exact Nat.one_pos hlt.le
  have hpack : F32.ofNat n = F32.pack false m := by rw [F32.ofNat, hfl]
  rw [hpack]
  refine ⟨F32.isFinite_pack false hlt, ?_⟩
  rw [F32.scaled, F32.sign_pack false hlt31, F32.scaledMag_pack false hlt31, hval]
  simp

/-- Settles O58, from the choice between the two patterns around the exact ratio (`F32.flMag_neighbours`). -/
theorem roundingPicksNearest : Obligations.RoundingPicksNearest := by
  intro n d hd
  refine ⟨fun hfin c _ => ?_, F32.flMag_eq_infMagnitude_iff hd⟩
  have hmag : F32.magnitude (BitVec.ofNat 32 (F32.flMag n d)) = F32.flMag n d := by
    have := F32.flMag_lt n d
    simp only [F32.magnitude, BitVec.toNat_ofNat]
    omega
  have hfrac : F32.frac (BitVec.ofNat 32 (F32.flMag n d)) % 2 = F32.flMag n d % 2 := by
    rw [F32.frac, hmag]
    omega
  rw [hfrac, F32.scaledMag_eq_magValue, F32.scaledMag_eq_magValue, hmag]
  exact F32.flMag_nearest hd hfin (F32.magnitude c)

end Sys2Proof.Machine
end

section
/-! The arithmetic fields on the classes of their operands (spec 00_scope.md R19), and the bound of sine and cosine
(R21). -/

namespace Sys2Proof.Machine.F32

/-! ### Finite operands -/

theorem addWith_of_isFinite (w : Word) {a b : Word} (ha : isFinite a = true) (hb : isFinite b = true) :
    addWith w a b = flSum (scaled a + scaled b) (sign a && sign b) := by
  simp [addWith, isNaN_eq_false_of_isFinite, isInf_eq_false_of_isFinite, ha, hb]

theorem add_of_isFinite {a b : Word} (ha : isFinite a = true) (hb : isFinite b = true) :
    add a b = flSum (scaled a + scaled b) (sign a && sign b) := addWith_of_isFinite _ ha hb

/-- Subtraction is addition of the negation, with no NaN pattern in play. -/
theorem sub_of_isFinite {a b : Word} (ha : isFinite a = true) (hb : isFinite b = true) :
    sub a b = add a (neg b) := by
  have hnb : isFinite (neg b) = true := by rw [isFinite_neg, hb]
  rw [add_of_isFinite ha hnb, sub, isNaN_eq_false_of_isFinite hb, if_neg Bool.false_ne_true,
    addWith_of_isFinite _ ha hnb]

theorem mul_of_isFinite {a b : Word} (ha : isFinite a = true) (hb : isFinite b = true) :
    mul a b = pack (sign a != sign b) (flMag (scaledMag a * scaledMag b) (2 ^ 149)) := by
  simp [mul, isNaN_eq_false_of_isFinite, isInf_eq_false_of_isFinite, ha, hb]

theorem div_of_isFinite {a b : Word} (ha : isFinite a = true) (hb : isFinite b = true)
    (hz : isZero b = false) :
    div a b = pack (sign a != sign b) (flMag (2 ^ 149 * scaledMag a) (scaledMag b)) := by
  simp [div, isNaN_eq_false_of_isFinite, isInf_eq_false_of_isFinite, ha, hb, hz]

theorem div_by_zero {a b : Word} (ha : isFinite a = true) (hz : isZero a = false) (hb : isZero b = true) :
    div a b = inf (sign a != sign b) := by
  simp [div, isNaN_eq_false_of_isFinite, isInf_eq_false_of_isFinite, ha, isFinite_of_isZero hb, hb, hz]

theorem flSum_zero (b : Bool) : flSum 0 b = zero b := if_pos rfl

theorem flSum_of_ne_zero {n : Int} (h : n ≠ 0) (b : Bool) :
    flSum n b = pack (decide (n < 0)) (flMag n.natAbs 1) := if_neg h

/-! ### Operands that give a NaN -/

theorem addWith_of_isNaN {a b : Word} (w : Word) (h : isNaN a = true ∨ isNaN b = true) :
    addWith w a b = w := by simp [addWith, h]

theorem isNaN_add_of_isNaN {a b : Word} (h : isNaN a = true ∨ isNaN b = true) : isNaN (add a b) = true := by
  rw [add, addWith_of_isNaN _ h]
  exact isNaN_nan ..

theorem isNaN_sub_of_isNaN {a b : Word} (h : isNaN a = true ∨ isNaN b = true) : isNaN (sub a b) = true := by
  rw [sub]
  split
  · exact isNaN_nan ..
  · next hb =>
    rw [addWith_of_isNaN _ (.inl (h.resolve_right hb))]
    exact isNaN_nan ..

theorem isNaN_mul_of_isNaN {a b : Word} (h : isNaN a = true ∨ isNaN b = true) : isNaN (mul a b) = true := by
  simp [mul, h, isNaN_nan]

theorem isNaN_div_of_isNaN {a b : Word} (h : isNaN a = true ∨ isNaN b = true) : isNaN (div a b) = true := by
  simp [div, h, isNaN_nan]

theorem isNaN_div_zeros {a b : Word} (ha : isZero a = true) (hb : isZero b = true) :
    isNaN (div a b) = true := by
  simp [div, isInf_eq_false_of_isFinite, isFinite_of_isZero, ha, hb, isNaN_nan]

theorem isNaN_mul_zero_inf {a b : Word} (ha : isZero a = true) (hb : isInf b = true) :
    isNaN (mul a b) = true := by
  simp [mul, ha, hb, isNaN_nan]

theorem isNaN_mul_inf_zero {a b : Word} (ha : isInf a = true) (hb : isZero b = true) :
    isNaN (mul a b) = true := by
  simp [mul, ha, hb, isNaN_nan]

theorem isNaN_div_infs {a b : Word} (ha : isInf a = true) (hb : isInf b = true) :
    isNaN (div a b) = true := by
  simp [div, ha, hb, isNaN_nan]

theorem isNaN_add_opposite_infs {a b : Word} (ha : isInf a = true) (hb : isInf b = true)
    (hs : sign a ≠ sign b) : isNaN (add a b) = true := by
  simp [add, addWith, ha, hb, hs, isNaN_nan]

/-! ### Sine and cosine -/

theorem isFinite_ofUnit (u : UnitF32) : isFinite (ofUnit u) = true :=
  isFinite_pack _ (u.magnitude.isLt.trans (by decide))

theorem scaledMag_ofUnit_le (u : UnitF32) : scaledMag (ofUnit u) ≤ 2 ^ 149 := by
  rw [ofUnit, scaledMag_pack _ (u.magnitude.isLt.trans (by decide)), ← magValue_one]
  exact magValue_strictMono.monotone (Nat.le_of_lt_succ u.magnitude.isLt)

/-- +0 is one of the patterns `ofUnit` gives, so a finite argument needs no case of its own (`SIN0`, `TRIGFIN`). -/
theorem exists_sin_eq_ofUnit {x : Word} (h : isFinite x = true) : ∃ u, sin x = ofUnit u := by
  by_cases hx : x = posZero
  · exact ⟨⟨false, 0⟩, by rw [hx, sin_posZero]; rfl⟩
  · exact ⟨Config.sinUnit x, by simp [sin, hx, h]⟩

theorem exists_cos_eq_ofUnit {x : Word} (h : isFinite x = true) : ∃ u, cos x = ofUnit u := by
  by_cases hx : x = posZero
  · exact ⟨⟨false, ⟨0x3F800000, by decide⟩⟩, by rw [hx, cos_posZero]; rfl⟩
  · exact ⟨Config.cosUnit x, by simp [cos, hx, h]⟩

theorem ne_posZero_of_isFinite_eq_false {x : Word} (h : isFinite x = false) : x ≠ posZero := by
  rintro rfl
  exact absurd h (by decide)

theorem sin_of_isFinite_eq_false {x : Word} (h : isFinite x = false) : sin x = nan .sin x x := by
  simp [sin, ne_posZero_of_isFinite_eq_false h, h]

theorem cos_of_isFinite_eq_false {x : Word} (h : isFinite x = false) : cos x = nan .cos x x := by
  simp [cos, ne_posZero_of_isFinite_eq_false h, h]

end Sys2Proof.Machine.F32

namespace Sys2Proof.Machine

/-- Settles O56: a finite argument gives a pattern of `F32.ofUnit`, any other a NaN. -/
theorem trigonometryHasNamedProperties : Obligations.TrigonometryHasNamedProperties := by
  refine ⟨F32.sin_posZero, F32.cos_posZero, fun x => ⟨fun hfin => ?_, fun hfin => ?_⟩⟩
  · obtain ⟨u, hsin⟩ := F32.exists_sin_eq_ofUnit hfin
    obtain ⟨v, hcos⟩ := F32.exists_cos_eq_ofUnit hfin
    rw [hsin, hcos]
    exact ⟨F32.isFinite_ofUnit u, F32.scaledMag_ofUnit_le u, F32.isFinite_ofUnit v, F32.scaledMag_ofUnit_le v⟩
  · rw [F32.sin_of_isFinite_eq_false hfin, F32.cos_of_isFinite_eq_false hfin]
    exact ⟨F32.isNaN_nan .., F32.isNaN_nan ..⟩

/-- Settles O59, from the equation of each operation on finite operands. -/
theorem finiteArithmeticRounds : Obligations.FiniteArithmeticRounds := by
  intro a b ha hb
  refine ⟨fun hne => ?_, fun hzero => ?_, F32.sub_of_isFinite ha hb, ?_, ?_, fun hz => ?_, fun hz hza => ?_⟩
  · rw [F32.add_of_isFinite ha hb, F32.flSum_of_ne_zero hne]
    exact ⟨F32.sign_pack _ (F32.flMag_lt ..), F32.magnitude_pack _ (F32.flMag_lt ..)⟩
  · rw [F32.add_of_isFinite ha hb, hzero, F32.flSum_zero]
    cases F32.sign a <;> cases F32.sign b <;> rfl
  · rw [F32.mul_of_isFinite ha hb, F32.sign_pack _ (F32.flMag_lt ..)]
  · rw [F32.mul_of_isFinite ha hb, F32.magnitude_pack _ (F32.flMag_lt ..)]
  · rw [F32.div_of_isFinite ha hb hz]
    exact ⟨F32.sign_pack _ (F32.flMag_lt ..), F32.magnitude_pack _ (F32.flMag_lt ..)⟩
  · rw [F32.div_by_zero ha hza hz]
    cases F32.sign a <;> cases F32.sign b <;> rfl

/-- Settles O60, one lemma per invalid pair. -/
theorem invalidOperationsGiveNaN : Obligations.InvalidOperationsGiveNaN := by
  intro a b
  refine ⟨fun h => ?_, F32.isNaN_div_zeros, fun ha hb => ?_, fun ha hb => ?_⟩
  · exact ⟨F32.isNaN_add_of_isNaN h, F32.isNaN_sub_of_isNaN h, F32.isNaN_mul_of_isNaN h, F32.isNaN_div_of_isNaN h⟩
  · exact ⟨F32.isNaN_mul_zero_inf ha hb, F32.isNaN_mul_inf_zero hb ha⟩
  · exact ⟨F32.isNaN_div_infs ha hb, F32.isNaN_add_opposite_infs ha hb⟩

end Sys2Proof.Machine
end

section
/-! The facts of each command that bound what it writes: how long its result is, which faults its checks and its data
raise, and that the generator's last state is below the modulus. -/

namespace Sys2Proof.Machine

/-! ### Lengths of the results -/

theorem length_statesFrom (p n s : Nat) : (statesFrom p n s).length = n := by
  induction n generalizing s with
  | zero => rfl
  | succ n ih => simp [statesFrom, ih]

theorem length_genSymbols (p seed count m : Nat) : (genSymbols p seed count m).length = count := by
  simp [genSymbols, length_statesFrom]

theorem length_mapPoints (rom : Vector (Word × Word) 8) (o : Bool) (symbols : List Word) :
    (mapPoints rom o symbols).length = Config.headerLen + symbols.length := by
  simp [mapPoints]

theorem length_convolve (fft ifft : Nat → List C32 → List C32) (signal kernel : List Word) :
    (convolve fft ifft signal kernel).length =
      convSize signal.length kernel.length - convShift kernel.length := by
  simp [convolve]

theorem length_mixSamples (fc fs : Word) (is qs : List Word) :
    (mixSamples fc fs is qs).length = min is.length qs.length := by
  simp [mixSamples]

theorem length_of_allSome {α : Type} {l : List (Option α)} {xs : List α} (h : allSome l = some xs) :
    xs.length = l.length := by
  simp [allSome_eq_some h]

/-- STRETCH never produces more samples than the capacity (43_complex_upsampler.md R233). -/
theorem length_of_stretchSource {h : Bool} {rb : VReg} {s : State} {xs : List Word}
    (hx : stretchSource h rb s = some xs) : xs.length ≤ s.inst.vlmax := by
  simp only [stretchSource] at hx
  split at hx
  · next hle => rw [length_of_allSome hx, List.length_map, List.length_range]; exact hle
  · cases hx; exact Nat.zero_le _

/-! ### KSYN: the taps and the faults of `validate` -/

theorem validate_ok {stage : Bool} {xs : List (Word × Word)} {taps : List Word}
    (h : validate stage xs = .ok taps) : taps = xs.map Prod.fst := by
  unfold validate at h
  split at h
  · cases h
  · cases h; rfl

theorem validate_error_code {stage : Bool} {xs : List (Word × Word)} {r : Raise}
    (h : validate stage xs = .error r) : r.code = .ktapDegenerate := by
  unfold validate at h
  split at h
  · cases h; rfl
  · cases h

section Synthesize

variable {body : Word → Word → Word → Word} {limit : Word → Word → Word} {tol t beta d : Word} {n : Nat}
  {norm : Bool}

theorem length_gridPoints (d : Word) (n : Nat) : (gridPoints d n).length = n := by simp [gridPoints]

theorem length_of_synthesize {taps : List Word} (h : synthesize body limit tol t beta d n norm = .ok taps) :
    taps.length = n := by
  simp only [synthesize] at h
  split at h
  · cases h
  · next raw hraw =>
    have hlen : raw.length = n := by rw [validate_ok hraw]; simp [length_gridPoints]
    split at h
    · rw [validate_ok h]; simp [length_gridPoints, hlen]
    · cases h; exact hlen

theorem synthesize_error_code {r : Raise} (h : synthesize body limit tol t beta d n norm = .error r) :
    r.code = .ktapDegenerate := by
  simp only [synthesize] at h
  split at h
  · next hraw => cases h; exact validate_error_code hraw
  · split at h
    · exact validate_error_code h
    · cases h

end Synthesize

/-! ### GEN: the last state -/

/-- Squaring modulo `p` stays below `p` (40_symbol_generator.md R145). -/
theorem stateAt_lt {p : Nat} (n : Nat) {s : Nat} (h : s < p) : stateAt p n s < p := by
  induction n generalizing s with
  | zero => exact h
  | succ n ih => exact ih (Nat.mod_lt _ (Nat.zero_lt_of_lt h))

theorem genLast_lt {p : Nat} (hpos : 0 < p) (hp : p < 2 ^ 32) (seed count : Nat) :
    (genLast p seed count).toNat < p := by
  have hlt : stateAt p (count - 1) (squareMod p seed) < p := stateAt_lt _ (Nat.mod_lt _ hpos)
  rwa [genLast, BitVec.toNat_ofNat, Nat.mod_eq_of_lt (hlt.trans hp)]

/-! ### QUANT: the samples and the faults in the data -/

theorem quantSample_error_aux {mode : QRound} {k : Nat} {y : Word} {r : Raise}
    (h : quantSample mode k y = .error r) : r.aux = 0#24 := by
  simp only [quantSample] at h
  split at h
  · cases h; rfl
  · split at h
    · cases h; rfl
    · cases h

theorem length_of_quantSamples {mode : QRound} {gain : Word} {k : Nat} {l : List (Option Word)}
    {samples : List Sample} (h : quantSamples mode gain k l = some (.ok samples)) :
    samples.length = l.length := by
  fun_induction quantSamples mode gain k l generalizing samples with
  | case1 => cases h; rfl
  | case6 k e rest a ha as has ih => cases h; simp [ih has]
  | _ => cases h

theorem quantSamples_error_aux {mode : QRound} {gain : Word} {k : Nat} {l : List (Option Word)}
    {r : Raise} (h : quantSamples mode gain k l = some (.error r)) : r.aux = 0#24 := by
  fun_induction quantSamples mode gain k l with
  | case3 k e rest q hq => cases h; exact quantSample_error_aux hq
  | case5 k e rest a ha q hq ih => cases h; exact ih hq
  | _ => cases h

end Sys2Proof.Machine
end

section
/-! The invariant of the block: what each update of the state must meet to keep it, that every command and every
served event keeps it, and with that every step. -/

namespace Sys2Proof.Machine

/-! ### The faults a command can raise (10_state.md R45; 60_exceptions.md R321) -/

/-- The auxiliary field of a fault is zero unless the code is `KTAP_DEGENERATE`. -/
def Raise.AuxAllowed (r : Raise) : Prop := r.aux = 0#24 ∨ r.code = .ktapDegenerate

@[simp] theorem Raise.auxAllowed_plain (code : FaultCode) (info0 info1 : Word) :
    (Raise.plain code info0 info1).AuxAllowed := .inl rfl

@[simp] theorem Raise.auxAllowed_capacity (required vlmax : Nat) :
    (Raise.capacity required vlmax).AuxAllowed := .inl rfl

theorem firstRaise_auxAllowed {l : List (Bool × Raise)} {r : Raise} (h : firstRaise l = some r)
    (hl : ∀ c ∈ l, c.2.AuxAllowed) : r.AuxAllowed := by
  obtain ⟨c, hc, -, rfl⟩ := firstRaise_eq_some h
  exact hl c hc

theorem lengthCheck_auxAllowed {s : State} {i j : VReg} {r : Raise} (h : lengthCheck s i j = some r) :
    r.AuxAllowed := firstRaise_auxAllowed h (by simp)

theorem toNat_faultWord (aux : BitVec 24) (code : FaultCode) :
    (faultWord aux code).toNat = 2 ^ 8 * aux.toNat + code.code.toNat := by
  rw [faultWord, BitVec.toNat_append, ← Nat.shiftLeft_add_eq_or_of_lt code.code.isLt, Nat.shiftLeft_eq,
    Nat.mul_comm]

theorem FaultCode.code_range (c : FaultCode) : 1 ≤ c.code.toNat ∧ c.code.toNat ≤ 8 := by
  cases c <;> decide

/-- Fault entry writes a legal record. -/
theorem takeFault_record_valid (s : State) (w : Word) {r : Raise} (hr : r.AuxAllowed) :
    FaultRecord.valid (s.takeFault w r).fr = true := by
  have hcode := FaultCode.code_range r.code
  have hword := toNat_faultWord r.aux r.code
  have hmod : (faultWord r.aux r.code).toNat % 2 ^ 8 = r.code.code.toNat := by omega
  have hdiv : (faultWord r.aux r.code).toNat / 2 ^ 8 = r.aux.toNat := by omega
  simp only [State.takeFault, FaultRecord.valid, if_true, hmod, hdiv, Bool.and_eq_true, Bool.or_eq_true,
    decide_eq_true_eq]
  refine ⟨hcode, ?_⟩
  rcases hr with haux | htap
  · exact .inl (by rw [haux]; rfl)
  · exact .inr (by rw [htap]; rfl)

end Sys2Proof.Machine

namespace Sys2Proof

open Machine

variable {s t : State}

/-! ### The updates of the state -/

/-- The invariant speaks of these four fields only. -/
theorem BlockInvariant.congr (h : BlockInvariant s) (hinst : t.inst = s.inst) (hmem : t.mem = s.mem)
    (hfr : t.fr = s.fr) (hprsg : t.prsgS = s.prsgS) : BlockInvariant t where
  params := hinst ▸ h.params
  memory := by rw [hmem, hinst]; exact h.memory
  record := hfr ▸ h.record
  prsg := by rw [hprsg, hinst]; exact h.prsg
  audio := hmem ▸ h.audio

theorem BlockInvariant.respond (h : BlockInvariant s) (r : Reply) : BlockInvariant (s.respond r) :=
  h.congr rfl rfl rfl rfl

theorem BlockInvariant.withInbox (h : BlockInvariant s) (rest : List HostEvent) :
    BlockInvariant (s.withInbox rest) := h.congr rfl rfl rfl rfl

theorem BlockInvariant.complete (h : BlockInvariant s) : BlockInvariant s.complete := h.congr rfl rfl rfl rfl

theorem BlockInvariant.takeFault (h : BlockInvariant s) (w : Word) {r : Raise} (hr : r.AuxAllowed) :
    BlockInvariant (s.takeFault w r) :=
  ⟨h.params, h.memory, takeFault_record_valid s w hr, h.prsg, h.audio⟩

theorem BlockInvariant.setV (h : BlockInvariant s) (i : VReg) {b : Buffer Word}
    (hb : b.wf s.inst.vlmax = true) : BlockInvariant (s.setV i b) :=
  ⟨h.params, State.wf_setV h.memory i hb, h.record, h.prsg, h.audio⟩

theorem BlockInvariant.setSym (h : BlockInvariant s) {b : Buffer Word} (hb : b.wf s.inst.vlmax = true) :
    BlockInvariant (s.setSym b) :=
  ⟨h.params, State.wf_setSym h.memory hb, h.record, h.prsg, h.audio⟩

/-- The audio buffer is written whole, so every sample of it has a value. -/
theorem BlockInvariant.setAud (h : BlockInvariant s) {samples : List Sample}
    (hlen : samples.length ≤ s.inst.vlmax) : BlockInvariant (s.setAud (Buffer.ofList samples)) where
  params := h.params
  memory := State.wf_setAud h.memory (Buffer.wf_ofList hlen)
  record := h.record
  prsg := h.prsg
  audio := by simp [Memory.audioComplete]

theorem BlockInvariant.setPrsgS (h : BlockInvariant s) {w : Word} (hw : w.toNat < s.inst.prsgP) :
    BlockInvariant (s.setPrsgS w) := ⟨h.params, h.memory, h.record, hw, h.audio⟩

theorem prsgP_range {c : Params} (h : Params.valid c = true) : 2 ≤ c.prsgP ∧ c.prsgP < 2 ^ 32 := by
  simp only [Params.valid, Bool.and_eq_true, decide_eq_true_eq] at h
  obtain ⟨⟨⟨hp, -⟩, -⟩, -⟩ := h
  exact hp

theorem BlockInvariant.wf_vreg (h : BlockInvariant s) (i : VReg) : (s.vreg i).wf s.inst.vlmax = true :=
  State.wf_vreg h.memory i

theorem BlockInvariant.wf_sym (h : BlockInvariant s) : s.mem.sym.wf s.inst.vlmax = true :=
  (Memory.wf_iff.mp h.memory).2.1

theorem BlockInvariant.vlength_le (h : BlockInvariant s) (i : VReg) : s.vlength i ≤ s.inst.vlmax :=
  (Buffer.wf_iff.mp (h.wf_vreg i)).1

theorem BlockInvariant.length_source_le (h : BlockInvariant s) {i : VReg} {xs : List Word}
    (hx : s.source i = some xs) : xs.length ≤ s.inst.vlmax := State.wf_source_length h.memory hx

/-- What a reset leaves meets the invariant, for any parameters in range. -/
theorem invariant_of_cleared (hparams : Params.valid s.inst = true) (hmem : s.mem = Memory.empty)
    (hfr : s.fr = FaultRecord.clear) (hprsg : s.prsgS = 0#32) : BlockInvariant s where
  params := hparams
  memory := by rw [hmem]; exact Memory.wf_empty _
  record := by rw [hfr]; rfl
  prsg := by rw [hprsg]; exact Nat.lt_of_lt_of_le Nat.two_pos (prsgP_range hparams).1
  audio := by rw [hmem]; rfl

theorem BlockInvariant.applyReset (h : BlockInvariant s) : BlockInvariant s.applyReset :=
  invariant_of_cleared h.params rfl rfl rfl

/-- The ranges of 00_scope.md R6, whatever the OPEN parameters are (entry 5). -/
theorem params_valid : Params.valid Config.params = true := by
  have hp := Config.prsgPOffset.isLt
  have hv := Config.vlmaxOffset.isLt
  have ht := Config.ksynTolPattern.isLt
  have hr := Config.hostRegion.isLt
  have htol : BitVec.ofNat 32 Config.ksynTolPattern.val = F32.pack false Config.ksynTolPattern.val := by
    simp [F32.pack]
  have hfin : F32.isFinite Config.params.ksynTol = true := by
    rw [Config.params, htol]
    exact F32.isFinite_pack false ht
  have hsign : F32.sign Config.params.ksynTol = false := by
    rw [Config.params, htol]
    exact F32.sign_pack false (ht.trans (by decide))
  simp only [Params.valid, hfin, hsign, Bool.not_false, Bool.true_or, Bool.and_true, Bool.and_eq_true,
    decide_eq_true_eq]
  simp only [Config.params, BitVec.toNat_ofNat]
  omega

/-- Settles O2, from the ranges of the OPEN parameters. -/
theorem resetSatisfiesInvariant : Obligations.ResetSatisfiesInvariant :=
  invariant_of_cleared params_valid rfl rfl rfl

/-! ### The commands -/

/-- A command keeps the invariant when every fault it can raise has a legal auxiliary field and everything it
completes with keeps the invariant. -/
theorem runCommand_invariant {α : Type} {i : Instr} {check : Option Raise} {operands : Option α}
    {body : α → Except Raise State} (hs : BlockInvariant s)
    (hcheck : ∀ r, check = some r → r.AuxAllowed)
    (herror : ∀ xs r, operands = some xs → body xs = .error r → r.AuxAllowed)
    (hok : ∀ xs u, check = none → operands = some xs → body xs = .ok u → BlockInvariant u)
    (h : runCommand i s check operands body = .next t) : BlockInvariant t := by
  rcases runCommand_next h with ⟨r, rfl, hr⟩ | ⟨xs, u, hc, hx, hu, rfl⟩
  · rcases hr with hr | ⟨xs, hx, hb⟩
    · exact hs.takeFault _ (hcheck r hr)
    · exact hs.takeFault _ (herror xs r hx hb)
  · exact (hok xs u hc hx hu).complete

theorem execGen_invariant (hs : BlockInvariant s) (h : execGen s = .next t) : BlockInvariant t := by
  refine runCommand_invariant hs (fun r hr => firstRaise_auxAllowed hr (by simp)) (fun _ _ _ he => by cases he)
    (fun _ u hc _ hu => ?_) h
  have hcount : s.p.count.toNat ≤ s.inst.vlmax := by
    simpa using firstRaise_eq_none.mp hc _ (List.mem_cons_of_mem _ List.mem_cons_self)
  obtain ⟨hpos, hlt⟩ := prsgP_range hs.params
  cases hu
  refine (hs.setSym (Buffer.wf_ofList ?_)).setPrsgS (genLast_lt (Nat.lt_of_lt_of_le Nat.two_pos hpos) hlt _ _)
  rwa [length_genSymbols]

theorem execKsyn_invariant {ra : VReg} {n : Bool} (hs : BlockInvariant s) (h : execKsyn ra n s = .next t) :
    BlockInvariant t := by
  refine runCommand_invariant hs (fun r hr => firstRaise_auxAllowed hr (by simp)) (fun _ r _ he => ?_)
    (fun _ u hc _ hu => ?_) h
  · split at he
    · next hr => cases he; exact .inr (synthesize_error_code hr)
    · cases he
  · have hkn : s.p.kn.toNat ≤ s.inst.vlmax := by simpa using firstRaise_eq_none.mp hc _ List.mem_cons_self
    split at hu
    · cases hu
    · next taps htaps =>
      cases hu
      refine hs.setV ra (Buffer.wf_ofList ?_)
      rwa [length_of_synthesize htaps]

theorem execMap_invariant {ra rb : VReg} {o : Bool} (hs : BlockInvariant s)
    (h : execMap ra rb o s = .next t) : BlockInvariant t := by
  refine runCommand_invariant hs (fun r hr => firstRaise_auxAllowed hr (by simp)) (fun _ _ _ he => by cases he)
    (fun symbols u hc hx hu => ?_) h
  have hfit : Config.headerLen + s.mem.sym.len ≤ s.inst.vlmax := by
    simpa using firstRaise_eq_none.mp hc _ List.mem_cons_self
  have hlen : (mapPoints s.inst.maprom o symbols).length ≤ s.inst.vlmax := by
    rwa [length_mapPoints, Buffer.length_of_contents hx]
  cases hu
  exact (hs.setV ra (Buffer.wf_ofList (by rwa [List.length_map]))).setV rb
    (Buffer.wf_ofList (by rwa [List.length_map]))

theorem execStretch_invariant {ra rb : VReg} {hf : Bool} (hs : BlockInvariant s)
    (h : execStretch ra rb hf s = .next t) : BlockInvariant t := by
  refine runCommand_invariant hs (fun r hr => firstRaise_auxAllowed hr (by simp)) (fun _ _ _ he => by cases he)
    (fun out u _ hx hu => ?_) h
  cases hu
  exact hs.setV ra (Buffer.wf_ofList (length_of_stretchSource hx))

theorem execConv_invariant {ra rb rc : VReg} (hs : BlockInvariant s) (h : execConv ra rb rc s = .next t) :
    BlockInvariant t := by
  refine runCommand_invariant hs (fun r hr => firstRaise_auxAllowed hr (by simp)) (fun _ _ _ he => by cases he)
    (fun xs u hc hx hu => ?_) h
  obtain ⟨signal, kernel⟩ := xs
  obtain ⟨hsig, hker⟩ := State.source2_eq_some.mp hx
  have hfit : convSize (s.vlength rb) (s.vlength rc) - convShift (s.vlength rc) ≤ s.inst.vlmax := by
    simpa using firstRaise_eq_none.mp hc _ (List.mem_cons_of_mem _ List.mem_cons_self)
  cases hu
  refine hs.setV ra (Buffer.wf_ofList ?_)
  rwa [length_convolve, ← State.vlength_of_source hsig, ← State.vlength_of_source hker]

theorem execVmul_invariant {ra rb : VReg} (hs : BlockInvariant s) (h : execVmul ra rb s = .next t) :
    BlockInvariant t := by
  refine runCommand_invariant hs (fun r => lengthCheck_auxAllowed) (fun _ _ _ he => by cases he)
    (fun xs u _ hx hu => ?_) h
  obtain ⟨xs, ys⟩ := xs
  obtain ⟨hxs, -⟩ := State.source2_eq_some.mp hx
  cases hu
  refine hs.setV ra (Buffer.wf_ofList ?_)
  rw [List.length_zipWith]
  exact (Nat.min_le_left _ _).trans (hs.length_source_le hxs)

theorem execMix_invariant {ra rb rc : VReg} (hs : BlockInvariant s) (h : execMix ra rb rc s = .next t) :
    BlockInvariant t := by
  refine runCommand_invariant hs (fun r => lengthCheck_auxAllowed) (fun _ _ _ he => by cases he)
    (fun xs u _ hx hu => ?_) h
  obtain ⟨is, qs⟩ := xs
  obtain ⟨his, -⟩ := State.source2_eq_some.mp hx
  cases hu
  refine hs.setV ra (Buffer.wf_ofList ?_)
  rw [length_mixSamples]
  exact (Nat.min_le_left _ _).trans (hs.length_source_le his)

theorem length_of_vaccResult (hs : BlockInvariant s) {ra rb : VReg} {init : Bool} {out : List Word}
    (h : vaccResult ra rb init s = some out) : out.length ≤ s.inst.vlmax := by
  cases init with
  | true => exact hs.length_source_le h
  | false =>
    simp only [vaccResult, Bool.false_eq_true, if_false] at h
    split at h
    · cases h
    · next xs ys hx =>
      obtain ⟨hxs, -⟩ := State.source2_eq_some.mp hx
      cases h
      rw [List.length_zipWith]
      exact (Nat.min_le_left _ _).trans (hs.length_source_le hxs)

theorem execVacc_invariant {ra rb : VReg} {init : Bool} (hs : BlockInvariant s)
    (h : execVacc ra rb init s = .next t) : BlockInvariant t := by
  refine runCommand_invariant hs (fun r hr => ?_) (fun _ _ _ he => by cases he) (fun out u _ hx hu => ?_) h
  · split at hr
    · cases hr
    · exact lengthCheck_auxAllowed hr
  · cases hu
    exact hs.setV ra (Buffer.wf_ofList (length_of_vaccResult hs hx))

theorem execQuant_invariant {rb : VReg} (hs : BlockInvariant s) (h : execQuant rb s = .next t) :
    BlockInvariant t := by
  refine runCommand_invariant hs (fun _ hr => by cases hr) (fun result r hx he => ?_)
    (fun result u _ hx hu => ?_) h
  · cases result with
    | error q => cases he; exact .inl (quantSamples_error_aux hx)
    | ok samples => cases he
  · cases result with
    | error q => cases hu
    | ok samples =>
      cases hu
      refine hs.setAud ?_
      rw [length_of_quantSamples hx, Buffer.elements, List.length_map, List.length_range]
      exact hs.vlength_le rb

theorem exec_invariant {i : Instr} (hs : BlockInvariant s) (h : exec i s = .next t) : BlockInvariant t := by
  cases i with
  | gen => exact execGen_invariant hs h
  | ksyn ra n => exact execKsyn_invariant hs h
  | map ra rb o => exact execMap_invariant hs h
  | stretch ra rb hf => exact execStretch_invariant hs h
  | conv ra rb rc => exact execConv_invariant hs h
  | vmul ra rb => exact execVmul_invariant hs h
  | mix ra rb rc => exact execMix_invariant hs h
  | vacc ra rb init => exact execVacc_invariant hs h
  | quant rb => exact execQuant_invariant hs h

/-! ### The host port and the step -/

theorem served_invariant (hs : BlockInvariant s) (h : Served s t) : BlockInvariant t := by
  cases h with
  | responded r => exact hs.respond r
  | drawn => exact hs.congr rfl rfl rfl rfl
  | pinReset => exact hs.applyReset
  | softReset => exact hs.applyReset.respond _
  | illegal w hf => exact (hs.takeFault w (Raise.auxAllowed_plain ..)).respond _
  | params q => exact hs.congr rfl rfl rfl rfl
  | vlength i n hn => exact (hs.setV i (Buffer.wf_setLen (hs.wf_vreg i) hn)).respond _
  | symLength n hn => exact (hs.setSym (Buffer.wf_setLen hs.wf_sym hn)).respond _
  | velement i k w hk => exact (hs.setV i (Buffer.wf_poke (hs.wf_vreg i) hk w)).respond _
  | symElement k w hk => exact (hs.setSym (Buffer.wf_poke hs.wf_sym hk w)).respond _

/-- Settles O55: a step is idle, serves an event, or runs a command, and each keeps the invariant. -/
theorem stepKeepsInvariant : Obligations.StepKeepsInvariant := by
  intro s t hs h
  rcases step_next h with ⟨-, rfl⟩ | ⟨e, rest, -, hserve⟩ | ⟨e, rest, i, u, -, -, hexec, rfl⟩
  · exact hs
  · exact served_invariant (hs.withInbox rest) (serve_done hserve)
  · exact (exec_invariant (hs.withInbox rest) hexec).respond _

end Sys2Proof
end

section
/-! Reset, and the host's writes of scalar registers (spec 10_state.md R46, R49, R50, R58; 20_memory.md R85). -/

namespace Sys2Proof.Machine

/-! ### The reset state (R58) -/

/-- A buffer without cells has no element with a value, whatever its length is set to (R48). -/
theorem Buffer.element?_setLen_empty {α : Type} (n k : Nat) :
    ((Buffer.empty : Buffer α).setLen n).element? k = none := by
  unfold Buffer.element?
  split <;> rfl

theorem reset_vreg (i : VReg) : State.reset.vreg i = Buffer.empty := by
  simp [State.vreg, State.reset, Memory.empty, Vector.get_eq_getElem]

theorem readScalar_reset {r : ScalarReg} {w : Word} (hr : r ≠ .id) (h : readScalar State.reset r = some w) :
    w = 0#32 := by
  cases r with
  | id => exact absurd rfl hr
  | cmd | ctrl => cases h
  | vl i => rw [readScalar, State.vlength, reset_vreg] at h; cases h; rfl
  | _ => cases h; rfl

/-- Settles O1: every vector register is the empty buffer, and a raised length gives an empty buffer no element. -/
theorem resetStateMatchesTable : Obligations.ResetStateMatchesTable := by
  refine ⟨rfl, fun r w => readScalar_reset, rfl, fun i => ?_, ⟨rfl, rfl⟩, ⟨rfl, rfl⟩, fun i n k => ?_,
    Buffer.element?_setLen_empty, Buffer.element?_setLen_empty, rfl⟩
  · rw [reset_vreg]; exact ⟨rfl, rfl⟩
  · rw [reset_vreg]; exact Buffer.element?_setLen_empty n k

/-! ### Writes of scalar registers -/

variable {s : State} {w : Word} {rest : List HostEvent}

theorem registerAddress_eq_offset (r : ScalarReg) : Claims.registerAddress r = r.offset := by
  cases r <;> rfl

theorem serve_registerWrite (s : State) (r : ScalarReg) (w : Word) :
    serve s (Claims.registerWrite r w) = writeScalar s w r := by
  rw [Claims.registerWrite, registerAddress_eq_offset, serve, portWrite, access_scalar]

/-- A register write that runs no command ends the step. -/
theorem step_registerWrite {r : ScalarReg} {t : State} (h : s.inbox = Claims.registerWrite r w :: rest)
    (hw : writeScalar (s.withInbox rest) w r = .done t) : step s = .next t :=
  step_done h ((serve_registerWrite _ r w).trans hw)

theorem writeCtrl_of_set (h : w.getLsbD 0 = true) : writeCtrl s w = s.applyReset.respond .ack := if_pos h

theorem writeCtrl_of_clear (h : w.getLsbD 0 = false) : writeCtrl s w = s.respond .ack :=
  if_neg (by rw [h]; exact Bool.false_ne_true)

theorem writeLength_of_le {n : Nat} (set : Nat → State) (h : n ≤ s.inst.vlmax) :
    writeLength s n set = (set n).respond .ack := if_pos h

theorem writeLength_of_lt {n : Nat} (set : Nat → State) (h : s.inst.vlmax < n) :
    writeLength s n set = s.respond (.portError .lengthRange) := if_neg (Nat.not_le.mpr h)

/-- A write of a register that holds a length: stored up to `VLMAX`, a port error above it (R49). -/
theorem step_lengthWrite {r : ScalarReg} {set : Nat → State} (h : s.inbox = Claims.registerWrite r w :: rest)
    (hw : writeScalar (s.withInbox rest) w r = .done (writeLength (s.withInbox rest) w.toNat set)) :
    (w.toNat ≤ s.inst.vlmax → step s = .next ((set w.toNat).respond .ack)) ∧
    (s.inst.vlmax < w.toNat → ∃ c, step s = .next (Claims.replied s rest (.portError c))) := by
  have hstep := step_registerWrite h hw
  refine ⟨fun hle => ?_, fun hlt => ⟨.lengthRange, ?_⟩⟩
  · rw [hstep, writeLength_of_le (s := s.withInbox rest) set hle]
  · rw [hstep, writeLength_of_lt (s := s.withInbox rest) set hlt]
    rfl

/-- Settles O4: the two cases of `writeCtrl`. -/
theorem controlWriteResetsOnBitZero : Obligations.ControlWriteResetsOnBitZero := by
  intro s w rest h
  have hstep : step s = .next (writeCtrl (s.withInbox rest) w) :=
    step_registerWrite (r := .ctrl) h rfl
  refine ⟨fun hset => ?_, fun hclear => ?_⟩
  · rw [hstep, writeCtrl_of_set hset]; rfl
  · rw [hstep, writeCtrl_of_clear hclear]; rfl

/-- Settles O46: `VL0` to `VL7` and `SYMLEN` are length registers. -/
theorem lengthRegisterWrites : Obligations.LengthRegisterWrites :=
  fun _ _ _ _ => ⟨fun h => step_lengthWrite h rfl, fun h => step_lengthWrite h rfl⟩

end Sys2Proof.Machine
end

section
/-! Commands that would read an element without a value (spec 10_state.md R48; 60_exceptions.md R337 (4)): when a source
has no contents, when the checks of each command pass, and the refusal that follows. -/

namespace Sys2Proof.Machine

/-! ### Buffers with an element without a value -/

theorem allSome_eq_none_iff {α : Type} {l : List (Option α)} : allSome l = none ↔ none ∈ l := by
  induction l with
  | nil => simp [allSome]
  | cons o rest ih =>
    cases o with
    | none => simp [allSome]
    | some x => cases hr : allSome rest <;> simp_all [allSome]

theorem Buffer.getElem?_elements {α : Type} (b : Buffer α) {k : Nat} (hk : k < b.len) :
    b.elements[k]? = some (b.element? k) := by
  simp [Buffer.elements, hk]

theorem Buffer.exists_unwritten {α : Type} {b : Buffer α} (h : b.contents = none) :
    ∃ k < b.len, b.element? k = none := by
  simpa [Buffer.elements] using allSome_eq_none_iff.mp h

variable {s : State} {ra rb i j : VReg}

theorem State.source2_eq_none (h : s.source i = none ∨ s.source j = none) : s.source2 i j = none := by
  unfold State.source2
  rcases h with h | h
  · rw [h]
  · rw [h]; cases s.source i <;> rfl

theorem vaccResult_eq_none (h : s.source ra = none ∨ s.source rb = none) : vaccResult ra rb false s = none := by
  simp [vaccResult, State.source2_eq_none h]

/-- A command whose checks pass and whose operands are not all written is refused. -/
theorem runCommand_refuses {α : Type} {i : Instr} {check : Option Raise} {operands : Option α}
    {body : α → Except Raise State} (hcheck : check = none) (hoperands : operands = none) :
    runCommand i s check operands body = .refused .unwrittenElement := by
  rw [hcheck, hoperands, runCommand_unwritten]

/-! ### Checks that pass -/

theorem convCheck_eq_none {m k vlmax : Nat} (hm : m ≠ 0) (hk : k ≠ 0) (hsize : 2 ≤ m + k - 1)
    (hfit : m + k - 1 - k / 2 ≤ vlmax) : convCheck m k vlmax = none := by
  have hnonempty : ¬ (m = 0 ∨ k = 0 ∨ convSize m k < 2) := by simp only [convSize]; omega
  have hcapacity : ¬ vlmax < convSize m k - convShift k := by simpa only [convSize, convShift, not_lt]
  rw [convCheck, decide_eq_false hnonempty, decide_eq_false hcapacity]
  rfl

section Stretch

variable {h : Bool}

theorem desired_eq_stretchDesired (s : State) (h : Bool) : Claims.desired s h = stretchDesired h s := rfl

theorem stretchCheck_eq_none (hbaud : h = true → s.p.baud ≠ 0#32) (hlen : s.vlength rb ≠ 0)
    (hfit : stretchDesired h s ≤ s.inst.vlmax) : stretchCheck h rb s = none := by
  have hparam : (h && s.p.baud == 0#32) = false := by
    cases h with
    | false => rfl
    | true => simpa using hbaud rfl
  rw [stretchCheck, hparam, beq_eq_false_iff_ne.mpr hlen, decide_eq_false (Nat.not_lt.mpr hfit)]
  rfl

/-- With an output at least as long as the source, every element of the source is copied (43_complex_upsampler.md
R230). -/
theorem exists_stretchIndex_eq {n desired k : Nat} (hk : k < n) (hn : n ≤ desired) :
    ∃ m < desired, stretchIndex n desired m = k := by
  have hper : 0 < desired / n := Nat.div_pos hn (Nat.zero_lt_of_lt hk)
  have hlt : desired / n * k < desired / n * n := Nat.mul_lt_mul_of_pos_left hk hper
  refine ⟨desired / n * k, Nat.lt_of_lt_of_le hlt (Nat.div_mul_le_self _ _), ?_⟩
  rw [stretchIndex, if_pos hlt, Nat.mul_div_cancel_left _ hper]

/-- The last output sample is a copy of the last element of the source (R230). -/
theorem stretchIndex_last {n desired : Nat} (hd : 0 < desired) :
    stretchIndex n desired (desired - 1) = n - 1 := by
  simp only [stretchIndex]
  split
  · next hlt =>
    have hexact : desired / n * n = desired := by
      have := Nat.div_mul_le_self desired n
      omega
    generalize desired / n = per at hlt hexact
    cases n with
    | zero => omega
    | succ n =>
      rw [Nat.mul_succ, Nat.mul_comm] at hexact
      refine Nat.div_eq_of_lt_le ?_ ?_
      · have hper : 0 < per := Nat.pos_of_ne_zero fun hzero => by simp [hzero] at hlt
        show n * per ≤ desired - 1
        omega
      · rw [Nat.add_sub_cancel, Nat.succ_mul]
        omega
  · rfl

/-- One copied element without a value leaves STRETCH without its operands. -/
theorem stretchSource_eq_none (hfit : stretchDesired h s ≤ s.inst.vlmax) {m : Nat}
    (hm : m < stretchDesired h s)
    (hx : (s.vreg rb).element? (stretchIndex (s.vlength rb) (stretchDesired h s) m) = none) :
    stretchSource h rb s = none := by
  simp only [stretchSource, if_pos hfit, allSome_eq_none_iff, List.mem_map, List.mem_range]
  exact ⟨m, hm, hx⟩

theorem execStretch_refuses (hbaud : h = true → s.p.baud ≠ 0#32) (hlen : s.vlength rb ≠ 0)
    (hfit : stretchDesired h s ≤ s.inst.vlmax) {m : Nat} (hm : m < stretchDesired h s)
    (hx : (s.vreg rb).element? (stretchIndex (s.vlength rb) (stretchDesired h s) m) = none) :
    execStretch ra rb h s = .refused .unwrittenElement :=
  runCommand_refuses (stretchCheck_eq_none hbaud hlen hfit) (stretchSource_eq_none hfit hm hx)

end Stretch

/-! ### QUANT: the products before the element without a value -/

theorem quantSample_of_convertible {mode : QRound} {y : Word} (k : Nat) (hy : Claims.convertible mode y) :
    quantSample mode k y = .ok (F32.wrap16 (F32.toInt mode y)) := by
  obtain ⟨hfinite, hlow, hhigh⟩ := hy
  have hrange : ¬ (F32.toInt mode y < -2 ^ 31 ∨ 2 ^ 31 - 1 < F32.toInt mode y) := by omega
  simp only [quantSample, hfinite, Bool.not_true, Bool.false_eq_true, if_false, if_neg hrange]

theorem quantSamples_eq_none {mode : QRound} {gain : Word} {l : List (Option Word)} {m : Nat} (k : Nat)
    (hm : l[m]? = some none)
    (hbefore : ∀ j < m, ∃ x, l[j]? = some (some x) ∧ Claims.convertible mode (F32.mul gain x)) :
    quantSamples mode gain k l = none := by
  induction l generalizing m k with
  | nil => cases hm
  | cons o rest ih =>
    cases m with
    | zero => cases hm; rfl
    | succ m =>
      obtain ⟨x, hx, hconv⟩ := hbefore 0 (Nat.zero_lt_succ m)
      cases hx
      have hrest : quantSamples mode gain (k + 1) rest = none :=
        ih (k + 1) hm fun j hj => hbefore (j + 1) (Nat.succ_lt_succ hj)
      simp only [quantSamples, quantSample_of_convertible k hconv, hrest]

theorem execQuant_refuses {k : Nat} (hk : k < s.vlength rb) (hx : (s.vreg rb).element? k = none)
    (hbefore : ∀ j < k, ∃ x, (s.vreg rb).element? j = some x ∧
      Claims.convertible s.inst.qround (F32.mul s.p.gain x)) :
    execQuant rb s = .refused .unwrittenElement := by
  refine runCommand_refuses rfl (quantSamples_eq_none 0 (m := k) ?_ fun j hj => ?_)
  · rw [Buffer.getElem?_elements _ hk, hx]
  · obtain ⟨x, hj', hconv⟩ := hbefore j hj
    exact ⟨x, by rw [Buffer.getElem?_elements _ (hj.trans hk), hj'], hconv⟩

/-! ### All commands -/

/-- Settles O39: in each clause the checks pass and an operand is not there. -/
theorem unwrittenOperandsAreRefused : Obligations.UnwrittenOperandsAreRefused := by
  intro s ra rb rc flag
  refine ⟨fun hx hlen => ⟨?vmul, ?vacc⟩, fun hx => ?copy, fun hx hlen => ?mix, fun hx hm hk hsize hfit => ?conv,
    fun hx hfit => ?map, fun hx hbaud hle hfit => ?stretch, fun hx hlen hbaud hpos hfit => ?stretchLast,
    fun k hk hx hbefore => execQuant_refuses hk hx hbefore⟩
  case vmul => exact runCommand_refuses (lengthCheck_eq_none hlen) (State.source2_eq_none hx)
  case vacc => exact runCommand_refuses (lengthCheck_eq_none hlen) (vaccResult_eq_none hx)
  case copy => exact runCommand_refuses rfl hx
  case mix => exact runCommand_refuses (lengthCheck_eq_none hlen) (State.source2_eq_none hx)
  case conv => exact runCommand_refuses (convCheck_eq_none hm hk hsize hfit) (State.source2_eq_none hx)
  case map =>
    have hcapacity : ¬ s.inst.vlmax < Config.headerLen + s.mem.sym.len := Nat.not_lt.mpr hfit
    refine runCommand_refuses ?_ hx
    rw [decide_eq_false hcapacity]
    rfl
  case stretch =>
    obtain ⟨k, hk, hnone⟩ := Buffer.exists_unwritten hx
    obtain ⟨m, hm, hindex⟩ := exists_stretchIndex_eq hk hle
    exact execStretch_refuses hbaud (Nat.ne_zero_of_lt hk) hfit hm (by rw [← hnone, ← hindex]; rfl)
  case stretchLast =>
    refine execStretch_refuses hbaud hlen hfit (Nat.sub_one_lt_of_lt hpos) ?_
    rw [← hx, ← desired_eq_stretchDesired, stretchIndex_last hpos]

end Sys2Proof.Machine
end

section
/-! Commands whose operands are all written (spec 10_state.md R48; 20_memory.md R93): each operand a command reads is
there, unless a check of the command raises a fault before it is read. -/

namespace Sys2Proof.Machine

variable {s : State} {ra rb i j : VReg}

/-- A command ends, by completion or by fault entry, if its operands are there whenever its checks pass. -/
theorem runCommand_ends {α : Type} {i : Instr} {check : Option Raise} {operands : Option α}
    {body : α → Except Raise State} (h : check = none → operands.isSome = true) :
    ∃ t, runCommand i s check operands body = .next t := by
  cases check with
  | some r => exact ⟨_, runCommand_check r⟩
  | none =>
    obtain ⟨xs, rfl⟩ := Option.isSome_iff_exists.mp (h rfl)
    exact ⟨_, runCommand_body xs⟩

/-! ### Operands -/

theorem allSome_isSome_iff {α : Type} {l : List (Option α)} : (allSome l).isSome = true ↔ none ∉ l := by
  rw [← allSome_eq_none_iff, Option.isSome_iff_ne_none]

theorem Buffer.element?_ne_none {α : Type} {b : Buffer α} (h : b.contents.isSome = true) {k : Nat}
    (hk : k < b.len) : b.element? k ≠ none := by
  obtain ⟨xs, hx⟩ := Option.isSome_iff_exists.mp h
  rw [Buffer.element?_of_contents hx, List.getElem?_eq_getElem (by rwa [Buffer.length_of_contents hx])]
  exact Option.some_ne_none _

theorem State.source2_isSome (hi : (s.source i).isSome = true) (hj : (s.source j).isSome = true) :
    (s.source2 i j).isSome = true := by
  obtain ⟨xs, hx⟩ := Option.isSome_iff_exists.mp hi
  obtain ⟨ys, hy⟩ := Option.isSome_iff_exists.mp hj
  rw [State.source2_eq_some.mpr ⟨hx, hy⟩]
  rfl

theorem vaccResult_isSome (init : Bool) (ha : (s.source ra).isSome = true) (hb : (s.source rb).isSome = true) :
    (vaccResult ra rb init s).isSome = true := by
  cases init with
  | true => exact hb
  | false =>
    obtain ⟨⟨xs, ys⟩, hxy⟩ := Option.isSome_iff_exists.mp (State.source2_isSome ha hb)
    simp [vaccResult, hxy]

/-- QUANT comes to its end over written elements, whatever the products are. -/
theorem quantSamples_isSome {mode : QRound} {gain : Word} {l : List (Option Word)} (k : Nat) (h : none ∉ l) :
    (quantSamples mode gain k l).isSome = true := by
  fun_induction quantSamples mode gain k l with
  | case2 => exact absurd List.mem_cons_self h
  | case4 k e rest a ha hrest ih =>
    have hsome := ih (List.not_mem_of_not_mem_cons h)
    rw [hrest] at hsome
    cases hsome
  | _ => rfl

/-! ### STRETCH -/

/-- Every sample copies an element of the source (43_complex_upsampler.md R230). -/
theorem stretchIndex_lt {n : Nat} (desired k : Nat) (hn : 0 < n) : stretchIndex n desired k < n := by
  simp only [stretchIndex]
  split
  · next hk => exact Nat.div_lt_of_lt_mul hk
  · exact Nat.sub_one_lt_of_lt hn

/-- An empty source is found by the checks (R232), before any element is read. -/
theorem vlength_pos_of_stretchCheck {h : Bool} (hcheck : stretchCheck h rb s = none) : 0 < s.vlength rb := by
  have hempty := firstRaise_eq_none.mp hcheck _ (List.mem_cons_of_mem _ List.mem_cons_self)
  exact Nat.pos_of_ne_zero (beq_eq_false_iff_ne.mp hempty)

theorem stretchSource_isSome (h : Bool) (hlen : 0 < s.vlength rb) (hb : (s.source rb).isSome = true) :
    (stretchSource h rb s).isSome = true := by
  simp only [stretchSource]
  split
  · rw [allSome_isSome_iff, List.mem_map]
    rintro ⟨m, -, hm⟩
    exact Buffer.element?_ne_none hb (stretchIndex_lt _ m hlen) hm
  · rfl

/-! ### All commands -/

/-- Settles O40: for each command the operands are there; STRETCH alone needs that its checks have passed. -/
theorem commandsEndWhenElementsAreWritten : Obligations.CommandsEndWhenElementsAreWritten := by
  intro s i hv hsym
  cases i with
  | gen =>
    simp only [exec, execGen]
    exact runCommand_ends fun _ => rfl
  | ksyn ra n =>
    simp only [exec, execKsyn]
    exact runCommand_ends fun _ => rfl
  | map ra rb o => exact runCommand_ends fun _ => hsym
  | stretch ra rb h =>
    exact runCommand_ends fun hcheck => stretchSource_isSome h (vlength_pos_of_stretchCheck hcheck) (hv rb)
  | conv ra rb rc => exact runCommand_ends fun _ => State.source2_isSome (hv rb) (hv rc)
  | vmul ra rb => exact runCommand_ends fun _ => State.source2_isSome (hv ra) (hv rb)
  | mix ra rb rc => exact runCommand_ends fun _ => State.source2_isSome (hv rb) (hv rc)
  | vacc ra rb init => exact runCommand_ends fun _ => vaccResult_isSome init (hv ra) (hv rb)
  | quant rb =>
    simp only [exec, execQuant]
    exact runCommand_ends fun _ => quantSamples_isSome 0 (allSome_isSome_iff.mp (hv rb))

end Sys2Proof.Machine
end

section
/-! The address map as the host sees it (spec 20_memory.md R81 to R83, R90): what a mapped offset looks like, where the
map stands among host addresses, and the transactions the port refuses. -/

namespace Sys2Proof.Machine

/-! ### Mapped offsets -/

/-- Everything an offset with a location can be: a scalar register's own, or one in the region of a window. -/
theorem locate_some {off : Nat} {loc : Location} (h : locate off = some loc) :
    (∃ r : ScalarReg, loc = .reg r ∧ off = r.offset) ∨
    (∃ i, loc = .vwindow i (elementIndex off) ∧ 0x10 ≤ off / windowSize ∧ off / windowSize < 0x18) ∨
    (loc = .symWindow (elementIndex off) ∧ off / windowSize = 0x20) ∨
    (loc = .audWindow (elementIndex off) ∧ off / windowSize = 0x30) := by
  simp only [locate] at h
  split at h
  · obtain ⟨r, hr, rfl⟩ := Option.map_eq_some_iff.mp h
    have hfound := List.find?_some hr
    exact .inl ⟨r, rfl, (beq_iff_eq.mp hfound).symm⟩
  · split at h
    · next hpage => cases h; exact .inr (.inl ⟨_, rfl, hpage⟩)
    · split at h
      · next hpage => cases h; exact .inr (.inr (.inl ⟨rfl, hpage⟩))
      · split at h
        · next hpage => cases h; exact .inr (.inr (.inr ⟨rfl, hpage⟩))
        · cases h

/-- The three blocks of scalar registers (R82). -/
theorem scalar_offset_range (r : ScalarReg) :
    r.offset < 0x24 ∨ (0x40 ≤ r.offset ∧ r.offset < 0x74) ∨ (0x80 ≤ r.offset ∧ r.offset < 0xA8) := by
  cases r with
  | vl i => simp only [ScalarReg.offset]; omega
  | _ => decide

/-- An offset that a transaction reaches is in a block of scalar registers, or names an element below `VLMAX` in the
region of a window (R82, R83). -/
theorem access_ok_range {s : State} {addr : Word} {size : Nat} {loc : Location}
    (h : access s addr size = .ok loc) :
    size = 4 ∧ addr.toNat % 4 = 0 ∧
    (addr.toNat < 0x24 ∨ (0x40 ≤ addr.toNat ∧ addr.toNat < 0x74) ∨
      (0x80 ≤ addr.toNat ∧ addr.toNat < 0xA8) ∨
      elementIndex addr.toNat < s.inst.vlmax ∧
        ((0x10 ≤ addr.toNat / windowSize ∧ addr.toNat / windowSize < 0x18) ∨
          addr.toNat / windowSize = 0x20 ∨ addr.toNat / windowSize = 0x30)) := by
  obtain ⟨hsize, halign, hloc, hv, hsym, haud⟩ := access_ok h
  refine ⟨hsize, halign, ?_⟩
  rcases locate_some hloc with ⟨r, -, hoff⟩ | ⟨i, rfl, hpage⟩ | ⟨rfl, hpage⟩ | ⟨rfl, hpage⟩
  · have := scalar_offset_range r
    omega
  · exact .inr (.inr (.inr ⟨hv i _ rfl, .inl hpage⟩))
  · exact .inr (.inr (.inr ⟨hsym _ rfl, .inr (.inl hpage)⟩))
  · exact .inr (.inr (.inr ⟨haud _ rfl, .inr (.inr hpage)⟩))

/-! ### Refused transactions -/

section Refused

variable {s : State} {addr w : Word} {size : Nat} {rest : List HostEvent} {c : PortError}

theorem step_read_of_access_error (h : s.inbox = .read addr size :: rest)
    (ha : access s addr size = .error c) : step s = .next (Claims.replied s rest (.portError c)) := by
  refine step_done h ?_
  rw [serve, portRead, show access (s.withInbox rest) addr size = .error c from ha]
  rfl

theorem step_write_of_access_error (h : s.inbox = .write addr size w :: rest)
    (ha : access s addr size = .error c) : step s = .next (Claims.replied s rest (.portError c)) := by
  refine step_done h ?_
  rw [serve, portWrite, show access (s.withInbox rest) addr size = .error c from ha]
  rfl

end Refused

/-- Settles O51: an access that reaches a location is at none of these addresses. -/
theorem unmappedTransactionsAreRefused : Obligations.UnmappedTransactionsAreRefused := by
  intro s addr w size rest hbad
  have hrefused : ∃ c, access s addr size = .error c := by
    cases ha : access s addr size with
    | error c => exact ⟨c, rfl⟩
    | ok loc =>
      have hrange := access_ok_range ha
      simp only [elementIndex, windowSize] at hrange
      omega
  obtain ⟨c, hc⟩ := hrefused
  exact ⟨fun h => ⟨c, step_read_of_access_error h hc⟩, fun h => ⟨c, step_write_of_access_error h hc⟩⟩

/-- Settles O50: of the answers to an event, only the response itself is a port error; a command ends in an
acknowledgement. -/
theorem portErrorsChangeNothing : Obligations.PortErrorsChangeNothing := by
  intro s t e rest c hinbox hstep hreply
  rcases step_next hstep with ⟨hidle, -⟩ | ⟨e', rest', hinbox', hserve⟩ | ⟨e', rest', i, u, -, -, -, rfl⟩
  · rw [hinbox] at hidle
    cases hidle
  · rw [hinbox] at hinbox'
    cases hinbox'
    have hpin : e ≠ .rst := by
      rintro rfl
      cases hserve
      cases hreply
    rcases serve_answer hserve hpin with (hack | ⟨w, hdata⟩) | ⟨c', rfl⟩
    · rw [hack] at hreply
      cases hreply
    · rw [hdata] at hreply
      cases hreply
    · cases hreply
      rfl
  · cases hreply

/-! ### The map at `HOST_BASE` -/

theorem hostBase_aligned {inst : Params} (h : Params.valid inst = true) : inst.hostBase.toNat % 2 ^ 30 = 0 := by
  simp only [Params.valid, Bool.and_eq_true, decide_eq_true_eq] at h
  exact h.2

theorem toNat_portAddress (inst : Params) (a : Word) :
    (portAddress inst a).toNat = (2 ^ 32 - inst.hostBase.toNat + a.toNat) % 2 ^ 32 := BitVec.toNat_sub ..

/-- The windows end below 2^30. -/
theorem locate_beyond {off : Nat} (h : 2 ^ 30 ≤ off) : locate off = none := by
  have hpage : 0x40 ≤ off / windowSize := by simp only [windowSize]; omega
  exact locate_none (by omega) (by omega) (by omega) (by omega)

/-- Settles O52: `HOST_BASE` is a multiple of 2^30, so its region does not wrap, and the difference of an address
outside the region is at least 2^30. -/
theorem hostBasePlacesMap : Obligations.HostBasePlacesMap := by
  intro inst hvalid
  have halign := hostBase_aligned hvalid
  have hbase := inst.hostBase.isLt
  refine ⟨fun off hoff => ?_, fun a ha => locate_beyond ?_⟩
  · rw [toNat_portAddress, BitVec.toNat_ofNat]
    omega
  · have := a.isLt
    rw [toNat_portAddress]
    omega

end Sys2Proof.Machine
end

section
/-! Reads of scalar registers, and writes of parameter and read-only registers (spec 20_memory.md R84, R85, R90). -/

namespace Sys2Proof.Machine

variable {s : State} {w : Word} {rest : List HostEvent}

/-! ### Reads (R84) -/

theorem registerValue_eq_readScalar (s : State) (r : ScalarReg) : Claims.registerValue s r = readScalar s r := by
  cases r <;> rfl

theorem step_registerRead {r : ScalarReg} {t : State} (h : s.inbox = Claims.registerRead r :: rest)
    (ht : portRead (s.withInbox rest) (BitVec.ofNat 32 r.offset) 4 = t) : step s = .next t := by
  rw [Claims.registerRead, registerAddress_eq_offset] at h
  exact step_done h (congrArg PortAction.done ht)

theorem portRead_readable {r : ScalarReg} (h : readScalar s r = some w) :
    portRead s (BitVec.ofNat 32 r.offset) 4 = s.respond (.data w) := by
  simp only [portRead, access_scalar, h]

theorem portRead_writeOnly {r : ScalarReg} (h : readScalar s r = none) :
    portRead s (BitVec.ofNat 32 r.offset) 4 = s.respond (.portError .writeOnly) := by
  simp only [portRead, access_scalar, h]

/-- Settles O43: the value written out is the one the port reads, and `CMD` and `CTRL` have none. -/
theorem registerReadsAnswer : Obligations.RegisterReadsAnswer := by
  intro s r rest h
  refine ⟨fun w hw => step_registerRead h (portRead_readable ?_), fun hr => ⟨.writeOnly, ?_⟩⟩
  · rw [← registerValue_eq_readScalar]
    exact hw
  · refine step_registerRead h (portRead_writeOnly ?_)
    rcases hr with rfl | rfl <;> rfl

/-! ### Writes of parameter registers (R85) -/

/-- The parameter registers after a write of one of them. -/
def ParamRegs.write (p : ParamRegs) (r : ScalarReg) (w : Word) : ParamRegs where
  seed := if r = .seed then w else p.seed
  count := if r = .count then w else p.count
  modulus := if r = .modulus then w else p.modulus
  vlen := if r = .vlen then w else p.vlen
  fs := if r = .fs then w else p.fs
  baud := if r = .baud then w else p.baud
  fc := if r = .fc then w else p.fc
  gain := if r = .gain then w else p.gain
  kt := if r = .kt then w else p.kt
  kbeta := if r = .kbeta then w else p.kbeta
  kd := if r = .kd then w else p.kd
  kn := if r = .kn then w else p.kn

/-- The state after an acknowledged write of a parameter register. -/
def State.writeParam (s : State) (r : ScalarReg) (w : Word) : State :=
  (s.setParams (s.p.write r w)).respond .ack

theorem writeScalar_parameter (s : State) (w : Word) {r : ScalarReg} (hr : r ∈ Claims.parameterRegs) :
    writeScalar s w r = .done (s.writeParam r w) := by
  unfold Claims.parameterRegs at hr
  fin_cases hr <;> rfl

theorem registerValue_writeParam_self (s : State) (w : Word) {r : ScalarReg} (hr : r ∈ Claims.parameterRegs) :
    Claims.registerValue (s.writeParam r w) r = some w := by
  unfold Claims.parameterRegs at hr
  fin_cases hr <;> rfl

theorem registerValue_writeParam_ne (s : State) (w : Word) {r r' : ScalarReg} (h : r' ≠ r) :
    Claims.registerValue (s.writeParam r w) r' = Claims.registerValue s r' := by
  cases r' with
  | seed | count | modulus | vlen | fs | baud | fc | gain | kt | kbeta | kd | kn =>
    exact congrArg some (if_neg h.symm)
  | _ => rfl

/-- Settles O44: the write is `writeParam`, whose registers the lemmas above give. -/
theorem parameterWritesReadBack : Obligations.ParameterWritesReadBack := by
  intro s r w rest hr h
  refine ⟨(s.withInbox rest).writeParam r w, step_registerWrite h (writeScalar_parameter _ w hr),
    registerValue_writeParam_self _ w hr, fun r' hne => ?_, rfl, rfl, rfl, rfl, rfl, rfl⟩
  rw [registerValue_writeParam_ne _ w hne]
  cases r' <;> rfl

/-! ### Writes of read-only registers (R90) -/

theorem writeScalar_readOnly (s : State) (w : Word) {r : ScalarReg} (hr : r ∈ Claims.readOnlyRegs) :
    writeScalar s w r = .done (s.respond (.portError .readOnly)) := by
  unfold Claims.readOnlyRegs at hr
  fin_cases hr <;> rfl

/-- Settles O45: each of the nine registers answers the one port error. -/
theorem readOnlyWritesAreRefused : Obligations.ReadOnlyWritesAreRefused :=
  fun _ _ w _ hr h => ⟨.readOnly, step_registerWrite h (writeScalar_readOnly _ w hr)⟩

end Sys2Proof.Machine
end

section
/-! The element windows (spec 20_memory.md R82, R83, R86 to R88): the address of an element reaches it, a write keeps
one word, and a read answers the element's value or a draw. -/

namespace Sys2Proof.Machine

variable {s : State} {k : Nat} {w : Word} {rest : List HostEvent}

/-! ### Addresses of elements below `VLMAX` -/

section Address

variable (hcap : s.inst.vlmax ≤ 2 ^ 22) (hk : k < s.inst.vlmax)
include hcap hk

theorem access_vAddress (i : VReg) : access s (vAddress i k) 4 = .ok (.vwindow i k) := by
  have haddr : (vAddress i k).toNat = vBase + windowSize * i.val + 4 * k := by
    simp only [vAddress, BitVec.toNat_ofNat, vBase, windowSize]
    omega
  rw [access_vwindow s i (by omega) haddr, if_pos hk]

theorem access_symAddress : access s (symAddress k) 4 = .ok (.symWindow k) := by
  have haddr : (symAddress k).toNat = symBase + 4 * k := by
    simp only [symAddress, BitVec.toNat_ofNat, symBase]
    omega
  rw [access_symWindow s (by omega) haddr, if_pos hk]

theorem access_audAddress : access s (audAddress k) 4 = .ok (.audWindow k) := by
  have haddr : (audAddress k).toNat = audBase + 4 * k := by
    simp only [audAddress, BitVec.toNat_ofNat, audBase]
    omega
  rw [access_audWindow s (by omega) haddr, if_pos hk]

end Address

/-! ### Writes (R86 to R88) -/

theorem portWrite_vwindow {addr : Word} {i : VReg} (ha : access s addr 4 = .ok (.vwindow i k)) :
    portWrite s addr 4 w = .done ((s.setV i ((s.vreg i).poke k w)).respond .ack) := by
  simp only [portWrite, ha]

theorem portWrite_symWindow {addr : Word} (ha : access s addr 4 = .ok (.symWindow k)) :
    portWrite s addr 4 w = .done ((s.setSym (s.mem.sym.poke k w)).respond .ack) := by
  simp only [portWrite, ha]

theorem portWrite_audWindow {addr : Word} (ha : access s addr 4 = .ok (.audWindow k)) :
    portWrite s addr 4 w = .done (s.respond (.portError .readOnly)) := by
  simp only [portWrite, ha]

/-- A poke keeps the length and sets one cell, whether the element is below the length or not. -/
theorem Buffer.poke_spec {α : Type} (b : Buffer α) (k : Nat) (x : α) :
    (b.poke k x).len = b.len ∧ peekCells (b.poke k x).cells k = some x ∧
    (∀ j, j ≠ k → peekCells (b.poke k x).cells j = peekCells b.cells j) ∧
    (k < b.len → (b.poke k x).element? k = some x) ∧
    (∀ j, j ≠ k → (b.poke k x).element? j = b.element? j) :=
  ⟨rfl, peekCells_pokeCells_self _ k x, fun _ hj => peekCells_pokeCells_ne _ hj x,
    fun hk => by rw [Buffer.element?_poke_self, if_pos hk], fun _ hj => Buffer.element?_poke_ne b hj x⟩

/-- Settles O47: the register is poked, and the others are as before. -/
theorem vectorWindowWrites : Obligations.VectorWindowWrites := by
  intro s i k w rest hcap hk h
  obtain ⟨hlen, hcell, hcells, helement, helements⟩ := Buffer.poke_spec (s.vreg i) k w
  refine ⟨_, step_done h (portWrite_vwindow (access_vAddress hcap hk i)), ?_⟩
  simp only [State.vlength, State.vreg_respond, State.vreg_setV_self, State.vreg_withInbox]
  exact ⟨hlen, hcell, hcells, helement, helements, fun j hj => State.vreg_setV_ne _ hj.symm _, rfl⟩

/-- Settles O48: the symbol buffer is poked; no location of the audio window takes a write. -/
theorem symbolAndAudioWindowWrites : Obligations.SymbolAndAudioWindowWrites := by
  intro s k w rest hcap hk
  refine ⟨fun h => ?symbol, fun h => ?audio⟩
  case symbol =>
    obtain ⟨hlen, hcell, hcells, helement, helements⟩ := Buffer.poke_spec s.mem.sym k w
    exact ⟨_, step_done h (portWrite_symWindow (access_symAddress hcap hk)), hlen, hcell, hcells, helement,
      helements, rfl⟩
  case audio => exact ⟨.readOnly, step_done h (portWrite_audWindow (access_audAddress hcap hk))⟩

/-! ### Reads (R86 to R88) -/

theorem portRead_written {addr : Word} {loc : Location} (ha : access s addr 4 = .ok loc)
    (hw : readElement s loc = some w) : portRead s addr 4 = s.respond (.data w) := by
  cases loc with
  | reg r => cases hw
  | _ => simp only [portRead, ha, hw]

theorem portRead_unwritten {addr : Word} {loc : Location} (ha : access s addr 4 = .ok loc)
    (hreg : ∀ r, loc ≠ .reg r) (hw : readElement s loc = none) : portRead s addr 4 = s.answerDraw := by
  cases loc with
  | reg r => exact absurd rfl (hreg r)
  | _ => simp only [portRead, ha, hw]

/-- The state after a read of a window element: its value on the port, or a draw if it has none. -/
def State.answerElement (s : State) (rest : List HostEvent) : Option Word → State
  | some w => Claims.replied s rest (.data w)
  | none => { Claims.replied s rest (.data (Config.draw s.draws)) with draws := s.draws + 1 }

theorem step_windowRead {addr : Word} {loc : Location} (h : s.inbox = .read addr 4 :: rest)
    (ha : access (s.withInbox rest) addr 4 = .ok loc) (hreg : ∀ r, loc ≠ .reg r) :
    step s = .next (s.answerElement rest (readElement (s.withInbox rest) loc)) := by
  cases hx : readElement (s.withInbox rest) loc with
  | some w => exact step_done h (congrArg PortAction.done (portRead_written ha hx))
  | none => exact step_done h (congrArg PortAction.done (portRead_unwritten ha hreg hx))

/-- Settles O49: the answer to the word an element reads as, which of an audio sample is its sign extension. -/
theorem windowReadsAnswer : Obligations.WindowReadsAnswer := by
  intro s i k rest hcap hk
  refine ⟨fun h => ?vector, fun h => ?symbol, fun h => ?audio⟩
  case vector => exact step_windowRead h (access_vAddress hcap hk i) (fun _ => nofun)
  case symbol => exact step_windowRead h (access_symAddress hcap hk) (fun _ => nofun)
  case audio =>
    refine (step_windowRead h (access_audAddress hcap hk) fun _ => nofun).trans ?_
    simp only [readElement, State.withInbox_mem]
    cases s.mem.aud.element? k <;> rfl

end Sys2Proof.Machine
end

section
/-! The command word (spec 30_encoding.md R110 to R127, R131): what each row of the table accepts, decode and encode
as inverses of each other, and the rows as match and mask. -/

namespace Sys2Proof

/-! ### The rows (R116 to R124) -/

section Rows

variable {ra rb rc fl : Nat} {i : Instr}

theorem decodeGen_eq_ok :
    decodeGen ra rb rc fl = .ok i ↔ ra = 0 ∧ rb = 0 ∧ rc = 0 ∧ fl = 0 ∧ .gen = i := by
  simp [decodeGen, bind_eq_ok, unusedField_eq_ok, absentFlag_eq_ok, pure, Except.pure]

theorem decodeKsyn_eq_ok :
    decodeKsyn ra rb rc fl = .ok i ↔ ∃ a : VReg, ra = a ∧ rb = 0 ∧ rc = 0 ∧ .ksyn a (fl == 1) = i := by
  simp [decodeKsyn, bind_eq_ok, usedField_eq_ok, unusedField_eq_ok, pure, Except.pure]

theorem decodeMap_eq_ok :
    decodeMap ra rb rc fl = .ok i ↔
      ∃ a b : VReg, ra = a ∧ rb = b ∧ rc = 0 ∧ a ≠ b ∧ .map a b (fl == 1) = i := by
  simp [decodeMap, bind_eq_ok, usedField_eq_ok, unusedField_eq_ok, distinct_eq_ok, pure, Except.pure]

theorem decodeStretch_eq_ok :
    decodeStretch ra rb rc fl = .ok i ↔
      ∃ a b : VReg, ra = a ∧ rb = b ∧ rc = 0 ∧ .stretch a b (fl == 1) = i := by
  simp [decodeStretch, bind_eq_ok, usedField_eq_ok, unusedField_eq_ok, pure, Except.pure]

theorem decodeConv_eq_ok :
    decodeConv ra rb rc fl = .ok i ↔
      ∃ a b c : VReg, ra = a ∧ rb = b ∧ rc = c ∧ fl = 0 ∧ .conv a b c = i := by
  simp [decodeConv, bind_eq_ok, usedField_eq_ok, absentFlag_eq_ok, pure, Except.pure]

theorem decodeVmul_eq_ok :
    decodeVmul ra rb rc fl = .ok i ↔
      ∃ a b : VReg, ra = a ∧ rb = b ∧ rc = 0 ∧ fl = 0 ∧ .vmul a b = i := by
  simp [decodeVmul, bind_eq_ok, usedField_eq_ok, unusedField_eq_ok, absentFlag_eq_ok, pure, Except.pure]

theorem decodeMix_eq_ok :
    decodeMix ra rb rc fl = .ok i ↔
      ∃ a b c : VReg, ra = a ∧ rb = b ∧ rc = c ∧ fl = 0 ∧ .mix a b c = i := by
  simp [decodeMix, bind_eq_ok, usedField_eq_ok, absentFlag_eq_ok, pure, Except.pure]

theorem decodeVacc_eq_ok :
    decodeVacc ra rb rc fl = .ok i ↔
      ∃ a b : VReg, ra = a ∧ rb = b ∧ rc = 0 ∧ .vacc a b (fl == 1) = i := by
  simp [decodeVacc, bind_eq_ok, usedField_eq_ok, unusedField_eq_ok, pure, Except.pure]

theorem decodeQuant_eq_ok :
    decodeQuant ra rb rc fl = .ok i ↔ ∃ b : VReg, ra = 0 ∧ rb = b ∧ rc = 0 ∧ fl = 0 ∧ .quant b = i := by
  simp [decodeQuant, bind_eq_ok, usedField_eq_ok, unusedField_eq_ok, absentFlag_eq_ok, pure, Except.pure]

end Rows

/-- `decode` succeeds when bits 11:1 are zero and the row of the opcode accepts the fields (R125). -/
theorem decode_eq_ok {w : Word} {i : Instr} :
    decode w = .ok i ↔ bits w 11 1 = 0 ∧
      decodeRow (bits w 31 24) (bits w 23 20) (bits w 19 16) (bits w 15 12) (bits w 0 0) = .ok i := by
  simp [decode, bind_eq_ok, zeroField_eq_ok]

/-! ### Decode and encode -/

theorem decode_encode {i : Instr} (h : i.wellFormed = true) : decode (encode i) = .ok i := by
  cases i with
  | gen =>
    rw [encode, decode_commandWord (by decide) (by decide) (by decide) (by decide)]
    exact decodeGen_eq_ok.2 ⟨rfl, rfl, rfl, rfl, rfl⟩
  | ksyn ra n =>
    rw [encode, decode_commandWord (by decide) (by omega) (by decide) (by decide)]
    exact decodeKsyn_eq_ok.2 ⟨ra, rfl, rfl, rfl, by simp⟩
  | map ra rb o =>
    rw [encode, decode_commandWord (by decide) (by omega) (by omega) (by decide)]
    exact decodeMap_eq_ok.2 ⟨ra, rb, rfl, rfl, rfl, bne_iff_ne.1 h, by simp⟩
  | stretch ra rb hf =>
    rw [encode, decode_commandWord (by decide) (by omega) (by omega) (by decide)]
    exact decodeStretch_eq_ok.2 ⟨ra, rb, rfl, rfl, rfl, by simp⟩
  | conv ra rb rc =>
    rw [encode, decode_commandWord (by decide) (by omega) (by omega) (by omega)]
    exact decodeConv_eq_ok.2 ⟨ra, rb, rc, rfl, rfl, rfl, rfl, rfl⟩
  | vmul ra rb =>
    rw [encode, decode_commandWord (by decide) (by omega) (by omega) (by decide)]
    exact decodeVmul_eq_ok.2 ⟨ra, rb, rfl, rfl, rfl, rfl, rfl⟩
  | mix ra rb rc =>
    rw [encode, decode_commandWord (by decide) (by omega) (by omega) (by omega)]
    exact decodeMix_eq_ok.2 ⟨ra, rb, rc, rfl, rfl, rfl, rfl, rfl⟩
  | vacc ra rb init =>
    rw [encode, decode_commandWord (by decide) (by omega) (by omega) (by decide)]
    exact decodeVacc_eq_ok.2 ⟨ra, rb, rfl, rfl, rfl, by simp⟩
  | quant rb =>
    rw [encode, decode_commandWord (by decide) (by decide) (by omega) (by decide)]
    exact decodeQuant_eq_ok.2 ⟨rb, rfl, rfl, rfl, rfl, rfl⟩

/-- The instruction a row answers has exactly the fields the row was given. -/
theorem encode_of_decodeRow {op ra rb rc fl : Nat} {i : Instr} (h : decodeRow op ra rb rc fl = .ok i) :
    encode i = commandWord op ra rb rc (fl == 1) ∧ i.wellFormed = true := by
  unfold decodeRow at h
  split_ifs at h with h1 h2 h3 h4 h5 h6 h7 h8 h9
  · obtain ⟨rfl, rfl, rfl, rfl, rfl⟩ := decodeGen_eq_ok.1 h
    subst h1; exact ⟨rfl, rfl⟩
  · obtain ⟨a, rfl, rfl, rfl, rfl⟩ := decodeKsyn_eq_ok.1 h
    subst h2; exact ⟨rfl, rfl⟩
  · obtain ⟨a, b, rfl, rfl, rfl, hne, rfl⟩ := decodeMap_eq_ok.1 h
    subst h3; exact ⟨rfl, bne_iff_ne.2 hne⟩
  · obtain ⟨a, b, rfl, rfl, rfl, rfl⟩ := decodeStretch_eq_ok.1 h
    subst h4; exact ⟨rfl, rfl⟩
  · obtain ⟨a, b, c, rfl, rfl, rfl, rfl, rfl⟩ := decodeConv_eq_ok.1 h
    subst h5; exact ⟨rfl, rfl⟩
  · obtain ⟨a, b, rfl, rfl, rfl, rfl, rfl⟩ := decodeVmul_eq_ok.1 h
    subst h6; exact ⟨rfl, rfl⟩
  · obtain ⟨a, b, c, rfl, rfl, rfl, rfl, rfl⟩ := decodeMix_eq_ok.1 h
    subst h7; exact ⟨rfl, rfl⟩
  · obtain ⟨a, b, rfl, rfl, rfl, rfl⟩ := decodeVacc_eq_ok.1 h
    subst h8; exact ⟨rfl, rfl⟩
  · obtain ⟨b, rfl, rfl, rfl, rfl, rfl⟩ := decodeQuant_eq_ok.1 h
    subst h9; exact ⟨rfl, rfl⟩

/-- Decoding and encoding are inverses of each other on the well-formed instructions. -/
theorem decode_eq_ok_iff_encode {w : Word} {i : Instr} :
    decode w = .ok i ↔ encode i = w ∧ i.wellFormed = true := by
  constructor
  · intro h
    obtain ⟨hzero, hrow⟩ := decode_eq_ok.1 h
    obtain ⟨henc, hwf⟩ := encode_of_decodeRow hrow
    exact ⟨henc.trans (commandWord_bits hzero), hwf⟩
  · rintro ⟨rfl, hwf⟩
    exact decode_encode hwf

/-- Settles O9: each row accepts the fields of its own encoding. -/
theorem encodedCommandsDecodeBack : Obligations.EncodedCommandsDecodeBack :=
  fun _ => decode_encode

/-- Settles O10: a row answers an instruction with the fields it read, and a word with bits 11:1 zero is the word
of its fields. -/
theorem decodedWordsEncodeBack : Obligations.DecodedWordsEncodeBack :=
  fun _ _ => decode_eq_ok_iff_encode.1

/-- Settles O8: a legal word is the encoding of its command (`decode_encode`); an illegal one fails the named check. -/
theorem workedEncodingsDecode : Obligations.WorkedEncodingsDecode := by
  have illegal {w : Word} {c : Illegal} (h : decode w = .error c) : (decode w).toOption = none := by rw [h]; rfl
  exact ⟨decode_encode (i := .gen) rfl, decode_encode (i := .ksyn 7 false) rfl,
    decode_encode (i := .ksyn 7 true) rfl, decode_encode (i := .map 0 1 false) rfl,
    decode_encode (i := .map 0 1 true) rfl, decode_encode (i := .stretch 2 0 true) rfl,
    decode_encode (i := .stretch 3 1 true) rfl, decode_encode (i := .stretch 1 0 false) rfl,
    decode_encode (i := .conv 0 2 7) rfl, decode_encode (i := .conv 1 3 7) rfl,
    decode_encode (i := .vmul 0 1) rfl, decode_encode (i := .mix 2 0 1) rfl,
    decode_encode (i := .vacc 6 2 true) rfl, decode_encode (i := .vacc 6 2 false) rfl,
    decode_encode (i := .quant 6) rfl,
    illegal (c := .unknownOpcode) (by decide), illegal (c := .sameDestination) (by decide),
    illegal (c := .registerAbove7) (by decide), illegal (c := .noFlag) (by decide),
    illegal (c := .unusedField) (by decide)⟩

/-! ### Match and mask (R125) -/

theorem bits_and (w m : Word) (hi lo : Nat) : bits (w &&& m) hi lo = bits w hi lo &&& bits m hi lo := by
  simp only [bits, BitVec.toNat_and, Nat.and_div_two_pow, Nat.and_mod_two_pow]

/-- A word is determined by its fields (R110). -/
theorem eq_iff_bits {w v : Word} : w = v ↔ bits w 31 24 = bits v 31 24 ∧ bits w 23 20 = bits v 23 20 ∧
    bits w 19 16 = bits v 19 16 ∧ bits w 15 12 = bits v 15 12 ∧ bits w 11 1 = bits v 11 1 ∧
    bits w 0 0 = bits v 0 0 := by
  constructor
  · rintro rfl; simp
  · intro h
    have hw := w.isLt
    have hv := v.isLt
    simp only [bits] at h
    exact BitVec.eq_of_toNat_eq (by omega)

/-- What a row asks of a register field (R113). -/
def FieldFits (used : Bool) (f : Nat) : Prop := if used then f < 8 else f = 0

@[simp] theorem fieldFits_unused {f : Nat} : FieldFits false f ↔ f = 0 := Iff.rfl

@[simp] theorem fieldFits_used {f : Nat} : FieldFits true f ↔ ∃ r : VReg, r.val = f :=
  ⟨fun h => ⟨⟨f, h⟩, rfl⟩, fun ⟨r, h⟩ => h ▸ r.isLt⟩

theorem FieldFits.lt {used : Bool} {f : Nat} (h : FieldFits used f) : f < 16 := by
  cases used with
  | true => exact Nat.lt_trans h (by decide)
  | false => exact fieldFits_unused.1 h ▸ (by decide)

/-- The bits of a register field that a row fixes to zero. -/
def fieldMask (used : Bool) : Nat := if used then 8 else 15

/-- The mask of a row with the given used register fields and flag: opcode, bits 11:1 and all that the row does not
use (R116 to R124). -/
def rowMask (a b c flag : Bool) : Word :=
  BitVec.ofNat 32
    (2 ^ 24 * 255 + 2 ^ 20 * fieldMask a + 2 ^ 16 * fieldMask b + 2 ^ 12 * fieldMask c + 4094 + (!flag).toNat)

theorem fieldMask_lt (used : Bool) : fieldMask used < 16 := by cases used <;> decide

theorem bits_rowMask (a b c flag : Bool) :
    bits (rowMask a b c flag) 31 24 = 255 ∧ bits (rowMask a b c flag) 23 20 = fieldMask a ∧
    bits (rowMask a b c flag) 19 16 = fieldMask b ∧ bits (rowMask a b c flag) 15 12 = fieldMask c ∧
    bits (rowMask a b c flag) 11 1 = 2047 ∧ bits (rowMask a b c flag) 0 0 = (!flag).toNat := by
  have ha := fieldMask_lt a
  have hb := fieldMask_lt b
  have hc := fieldMask_lt c
  have hf := Bool.toNat_lt (!flag)
  simp only [bits, rowMask, BitVec.toNat_ofNat]
  omega

theorem and_fieldMask_eq_zero {f : Nat} (used : Bool) (hf : f < 16) :
    f &&& fieldMask used = 0 ↔ FieldFits used f := by
  have all : ∀ f < 16, (f &&& 8 = 0 ↔ f < 8) ∧ (f &&& 15 = 0 ↔ f = 0) := by decide
  cases used with
  | true => exact (all f hf).1
  | false => exact (all f hf).2

theorem and_flagMask_eq_zero {f : Nat} (flag : Bool) (hf : f < 2) :
    f &&& (!flag).toNat = 0 ↔ ((f == 1) = true → flag = true) := by
  have all : ∀ f < 2, ∀ flag : Bool, f &&& (!flag).toNat = 0 ↔ ((f == 1) = true → flag = true) := by decide
  exact all f hf flag

/-- The match of a row under its mask, field by field. -/
theorem and_rowMask_eq_iff_bits {w : Word} {op : Nat} (hop : op < 256) (a b c flag : Bool) :
    w &&& rowMask a b c flag = commandWord op 0 0 0 false ↔
      bits w 31 24 = op ∧ FieldFits a (bits w 23 20) ∧ FieldFits b (bits w 19 16) ∧ FieldFits c (bits w 15 12) ∧
        bits w 11 1 = 0 ∧ ((bits w 0 0 == 1) = true → flag = true) := by
  have lt (hi lo : Nat) : bits w hi lo < 2 ^ (hi + 1 - lo) := Nat.mod_lt _ (Nat.two_pow_pos _)
  have hop255 : bits w 31 24 &&& 255 = bits w 31 24 := Nat.and_two_pow_sub_one_of_lt_two_pow (n := 8) (lt 31 24)
  have hz2047 : bits w 11 1 &&& 2047 = bits w 11 1 := Nat.and_two_pow_sub_one_of_lt_two_pow (n := 11) (lt 11 1)
  obtain ⟨mop, ma, mb, mc, mz, mf⟩ := bits_rowMask a b c flag
  have zero : 0 < 16 := by decide
  rw [eq_iff_bits, bits_op hop zero zero zero, bits_ra hop zero zero zero, bits_rb hop zero zero zero,
    bits_rc hop zero zero zero, bits_zero hop zero zero zero, bits_flag hop zero zero zero]
  simp only [bits_and, mop, ma, mb, mc, mz, mf]
  rw [hop255, hz2047, and_fieldMask_eq_zero a (lt 23 20), and_fieldMask_eq_zero b (lt 19 16),
    and_fieldMask_eq_zero c (lt 15 12), Bool.toNat_false, and_flagMask_eq_zero flag (lt 0 0)]

/-- A word has a row's match under the row's mask exactly when it is a word of format C with the row's opcode whose
register fields and flag the row allows. -/
theorem and_rowMask_eq_iff {w : Word} {op : Nat} (hop : op < 256) (a b c flag : Bool) :
    w &&& rowMask a b c flag = commandWord op 0 0 0 false ↔
      ∃ ra rb rc fl, FieldFits a ra ∧ FieldFits b rb ∧ FieldFits c rc ∧ (fl = true → flag = true) ∧
        commandWord op ra rb rc fl = w := by
  rw [and_rowMask_eq_iff_bits hop]
  constructor
  · rintro ⟨rfl, ha, hb, hc, hz, hf⟩
    exact ⟨_, _, _, _, ha, hb, hc, hf, commandWord_bits hz⟩
  · rintro ⟨ra, rb, rc, fl, ha, hb, hc, hf, rfl⟩
    have la := ha.lt
    have lb := hb.lt
    have lc := hc.lt
    rw [bits_op hop la lb lc, bits_ra hop la lb lc, bits_rb hop la lb lc, bits_rc hop la lb lc,
      bits_zero hop la lb lc, bits_flag hop la lb lc]
    exact ⟨rfl, ha, hb, hc, rfl, by simpa using hf⟩

/-- MAP's extra condition (R118), read off its word. -/
theorem wellFormed_map_iff_bits {ra rb : VReg} {o : Bool} : (Instr.map ra rb o).wellFormed = true ↔
    bits (encode (.map ra rb o)) 23 20 ≠ bits (encode (.map ra rb o)) 19 16 := by
  have ha : ra.val < 16 := by omega
  have hb : rb.val < 16 := by omega
  rw [encode, bits_ra (by decide) ha hb (by decide), bits_rb (by decide) ha hb (by decide), Fin.val_ne_iff]
  exact bne_iff_ne

/-- Settles O11: each row's two constants are its mask and match by its fields, so `and_rowMask_eq_iff` says which
words it holds, and these are the encodings of its commands. -/
theorem decoderFollowsMatchAndMask : Obligations.DecoderFollowsMatchAndMask := by
  intro w
  have row {op : Nat} (hop : op < 256) := and_rowMask_eq_iff (w := w) hop
  refine ⟨?gen, ?ksyn, ?map, ?stretch, ?conv, ?vmul, ?mix, ?vacc, ?quant⟩
  case gen =>
    refine .trans ?_ (row (op := 1) (by decide) false false false false).symm
    simp [decode_eq_ok_iff_encode, encode, Instr.wellFormed]
  case ksyn =>
    refine .trans ?_ (row (op := 2) (by decide) true false false true).symm
    simp [decode_eq_ok_iff_encode, encode, Instr.wellFormed]
  case map =>
    refine .trans ?_ (and_congr_left' (row (op := 3) (by decide) true true false true)).symm
    constructor
    · rintro ⟨ra, rb, o, h⟩
      obtain ⟨rfl, hwf⟩ := decode_eq_ok_iff_encode.1 h
      exact ⟨⟨ra, rb, 0, o, ra.isLt, rb.isLt, rfl, fun _ => rfl, rfl⟩, wellFormed_map_iff_bits.1 hwf⟩
    · rintro ⟨⟨ra, rb, rc, o, ha, hb, rfl, -, rfl⟩, hne⟩
      obtain ⟨ra, rfl⟩ := fieldFits_used.1 ha
      obtain ⟨rb, rfl⟩ := fieldFits_used.1 hb
      exact ⟨ra, rb, o, decode_encode (wellFormed_map_iff_bits.2 hne)⟩
  case stretch =>
    refine .trans ?_ (row (op := 4) (by decide) true true false true).symm
    simp [decode_eq_ok_iff_encode, encode, Instr.wellFormed]
  case conv =>
    refine .trans ?_ (row (op := 5) (by decide) true true true false).symm
    simp [decode_eq_ok_iff_encode, encode, Instr.wellFormed]
  case vmul =>
    refine .trans ?_ (row (op := 6) (by decide) true true false false).symm
    simp [decode_eq_ok_iff_encode, encode, Instr.wellFormed]
  case mix =>
    refine .trans ?_ (row (op := 7) (by decide) true true true false).symm
    simp [decode_eq_ok_iff_encode, encode, Instr.wellFormed]
  case vacc =>
    refine .trans ?_ (row (op := 8) (by decide) true true false true).symm
    simp [decode_eq_ok_iff_encode, encode, Instr.wellFormed]
  case quant =>
    refine .trans ?_ (row (op := 9) (by decide) false true false false).symm
    simp [decode_eq_ok_iff_encode, encode, Instr.wellFormed]

end Sys2Proof
end

section
/-! Dispatch and frame of the commands (spec 30_encoding.md R111, R112, R115; 10_state.md R31): a legal `CMD` write
runs the command it encodes, and a command writes its destinations and nothing else. -/

namespace Sys2Proof.Machine

variable {s t : State} {i : Instr}

/-! ### Dispatch -/

theorem issue_of_decode {w : Word} (hf : s.fr.faulted = false) (hd : decode w = .ok i) : issue s w = .run i := by
  simp [issue, hf, hd]

/-- Settles O5: the event is the `CMD` write, which the dispatcher hands to `exec`. -/
theorem stepRunsDecodedCommand : Obligations.StepRunsDecodedCommand := by
  intro s w i rest hinbox hf hd
  refine ⟨(decode_eq_ok_iff_encode.1 hd).2, ?_⟩
  have hserve : serve (s.withInbox rest) (commandWrite w) = .run i := by
    rw [serve_commandWrite, issue_of_decode (s := s.withInbox rest) hf hd]
  rw [step_run hinbox hserve, State.withInbox]
  cases exec i { s with inbox := rest } <;> rfl

/-! ### What a command writes (R115) -/

/-- Among the buffers and `PRSG_S`, `t` differs from `s` in destinations of `i` only. -/
structure WritesOnly (i : Instr) (s t : State) : Prop where
  vreg  : ∀ j, j ∉ Claims.vectorDestinations i → t.vreg j = s.vreg j
  sym   : i ≠ .gen → t.mem.sym = s.mem.sym
  prsgS : i ≠ .gen → t.prsgS = s.prsgS
  aud   : (∀ rb, i ≠ .quant rb) → t.mem.aud = s.mem.aud

theorem WritesOnly.refl (i : Instr) (s : State) : WritesOnly i s s :=
  ⟨fun _ _ => rfl, fun _ => rfl, fun _ => rfl, fun _ => rfl⟩

theorem WritesOnly.takeFault (h : WritesOnly i s t) (w : Word) (r : Raise) : WritesOnly i s (t.takeFault w r) :=
  ⟨h.vreg, h.sym, h.prsgS, h.aud⟩

theorem WritesOnly.complete (h : WritesOnly i s t) : WritesOnly i s t.complete :=
  ⟨h.vreg, h.sym, h.prsgS, h.aud⟩

theorem WritesOnly.setV (h : WritesOnly i s t) {r : VReg} (hr : r ∈ Claims.vectorDestinations i) (b : Buffer Word) :
    WritesOnly i s (t.setV r b) where
  vreg j hj := (t.vreg_setV_ne (fun e : r = j => hj (e ▸ hr)) b).trans (h.vreg j hj)
  sym := h.sym
  prsgS := h.prsgS
  aud := h.aud

theorem WritesOnly.setSym (h : WritesOnly .gen s t) (b : Buffer Word) : WritesOnly .gen s (t.setSym b) :=
  ⟨h.vreg, fun hg => absurd rfl hg, h.prsgS, h.aud⟩

theorem WritesOnly.setPrsgS (h : WritesOnly .gen s t) (w : Word) : WritesOnly .gen s (t.setPrsgS w) :=
  ⟨h.vreg, h.sym, fun hg => absurd rfl hg, h.aud⟩

theorem WritesOnly.setAud {rb : VReg} (h : WritesOnly (.quant rb) s t) (b : Buffer Sample) :
    WritesOnly (.quant rb) s (t.setAud b) :=
  ⟨h.vreg, h.sym, h.prsgS, fun hq => absurd rfl (hq rb)⟩

/-- A command writes its destinations only when its body does: a fault writes none of them, and neither does the
count of a completion. -/
theorem runCommand_writesOnly {α : Type} {check : Option Raise} {operands : Option α}
    {body : α → Except Raise State} (hbody : ∀ xs u, body xs = .ok u → WritesOnly i s u)
    (h : runCommand i s check operands body = .next t) : WritesOnly i s t := by
  rcases runCommand_next h with ⟨r, rfl, -⟩ | ⟨xs, u, -, -, hu, rfl⟩
  · exact (WritesOnly.refl i s).takeFault _ _
  · exact (hbody xs u hu).complete

/-- The same for the commands whose body only stores a result in a vector register. -/
theorem runCommand_setV_writesOnly {α : Type} {check : Option Raise} {operands : Option α} {r : VReg}
    {result : α → Buffer Word} (hr : r ∈ Claims.vectorDestinations i)
    (h : runCommand i s check operands (fun xs => .ok (s.setV r (result xs))) = .next t) : WritesOnly i s t :=
  runCommand_writesOnly (fun _ _ hu => Except.ok.inj hu ▸ (WritesOnly.refl i s).setV hr _) h

/-- Every command writes only its destinations: GEN `SYM` and `PRSG_S`, QUANT `AUD`, MAP two vector registers, and
every other command one. -/
theorem exec_writesOnly (h : exec i s = .next t) : WritesOnly i s t := by
  cases i with
  | gen =>
    simp only [exec, execGen] at h
    exact runCommand_writesOnly (fun _ _ hu => Except.ok.inj hu ▸ ((WritesOnly.refl _ s).setSym _).setPrsgS _) h
  | ksyn ra n =>
    simp only [exec, execKsyn] at h
    refine runCommand_writesOnly (fun _ u hu => ?_) h
    split at hu
    · cases hu
    · cases hu; exact (WritesOnly.refl _ s).setV List.mem_cons_self _
  | map ra rb o =>
    refine runCommand_writesOnly (fun symbols u hu => ?_) h
    cases hu
    exact ((WritesOnly.refl _ s).setV List.mem_cons_self _).setV (List.mem_cons_of_mem _ List.mem_cons_self) _
  | stretch ra rb hf => exact runCommand_setV_writesOnly List.mem_cons_self h
  | conv ra rb rc => exact runCommand_setV_writesOnly List.mem_cons_self h
  | vmul ra rb => exact runCommand_setV_writesOnly List.mem_cons_self h
  | mix ra rb rc => exact runCommand_setV_writesOnly List.mem_cons_self h
  | vacc ra rb init => exact runCommand_setV_writesOnly List.mem_cons_self h
  | quant rb =>
    simp only [exec, execQuant] at h
    refine runCommand_writesOnly (fun result u hu => ?_) h
    cases result with
    | error r => cases hu
    | ok samples => cases hu; exact (WritesOnly.refl _ s).setAud _

theorem exec_keepsOutside (h : exec i s = .next t) : KeepsOutside s t := by
  rcases exec_next h with ⟨r, rfl⟩ | ⟨u, rfl, ⟨hp, hinst, hinbox, hreply, hdraws⟩, -, -⟩
  · exact ⟨rfl, rfl, rfl, rfl, rfl⟩
  · exact ⟨hp, hinst, hinbox, hreply, hdraws⟩

/-- Settles O42: every command keeps what lies outside the buffers and `PRSG_S`, and writes only its destinations
among these. -/
theorem commandsWriteOnlyDestinations : Obligations.CommandsWriteOnlyDestinations := by
  intro s t i h
  obtain ⟨hp, hinst, hinbox, hreply, hdraws⟩ := exec_keepsOutside h
  obtain ⟨hv, hsym, hprsgS, haud⟩ := exec_writesOnly h
  exact ⟨hp, hinst, hinbox, hreply, hdraws, hv, fun hi => ⟨hsym hi, hprsgS hi⟩, haud⟩

end Sys2Proof.Machine
end

section
/-! The symbol generator (spec 40_symbol_generator.md R141 to R147): GEN as a function of its parameter registers,
and its two faults. -/

namespace Sys2Proof.Machine

variable {s t : State}

/-! ### The squaring sequence (R141) -/

/-- `stateAt` squares its start and then steps on; the claim's recursion steps on first and squares last (R141). -/
theorem stateAt_succ (p i x : Nat) : stateAt p (i + 1) x = squareMod p (stateAt p i x) := by
  induction i generalizing x with
  | zero => rfl
  | succ i ih => exact ih (squareMod p x)

theorem stateAt_eq_prsgState (p seed i : Nat) :
    stateAt p i (squareMod p seed) = Claims.prsgState p seed i := by
  induction i with
  | zero => rfl
  | succ i ih => rw [stateAt_succ, ih, squareMod, Claims.prsgState]

theorem statesFrom_eq_map_stateAt (p n x : Nat) :
    statesFrom p n x = (List.range n).map fun i => stateAt p i x := by
  induction n generalizing x with
  | zero => rfl
  | succ n ih =>
    rw [statesFrom, ih, List.range_succ_eq_map, List.map_cons, List.map_map]
    rfl

theorem genSymbols_eq_map_prsgState (p seed count m : Nat) :
    genSymbols p seed count m =
      (List.range count).map fun i => BitVec.ofNat 32 (Claims.prsgState p seed i % m) := by
  simp only [genSymbols, statesFrom_eq_map_stateAt, List.map_map, Function.comp_def, stateAt_eq_prsgState]

theorem genLast_eq_prsgState (p seed count : Nat) :
    genLast p seed count = BitVec.ofNat 32 (Claims.prsgState p seed (count - 1)) :=
  congrArg (BitVec.ofNat 32) (stateAt_eq_prsgState p seed (count - 1))

/-! ### The outcomes of GEN (R142) -/

theorem encode_gen : encode .gen = 0x01000000#32 := rfl

/-- Without an auxiliary field the fault word is the code (60_exceptions.md R325). -/
theorem faultWord_zero (code : FaultCode) : faultWord 0#24 code = code.code.setWidth 32 := by
  cases code <;> rfl

/-- Fault entry of a plain fault, as the claims write it (60_exceptions.md R325). -/
theorem takeFault_plain (s : State) (w : Word) (code : FaultCode) (info0 info1 : Word) :
    s.takeFault w (Raise.plain code info0 info1) =
      Claims.faultedWith s w (code.code.setWidth 32) info0 info1 := by
  rw [← faultWord_zero]
  rfl

theorem sat32_of_lt {n : Nat} (h : n < 2 ^ 32) : sat32 n = BitVec.ofNat 32 n := by
  rw [sat32, Nat.min_eq_left (Nat.le_sub_one_of_lt h)]

theorem sat32_toNat (w : Word) : sat32 w.toNat = w := by
  rw [sat32_of_lt w.isLt, BitVec.ofNat_toNat, BitVec.setWidth_eq]

theorem exec_gen_of_fits (hm : s.p.modulus ≠ 0#32) (hfit : s.p.count.toNat ≤ s.inst.vlmax) :
    exec .gen s = .next
      ((s.setSym (Buffer.ofList
          (genSymbols s.inst.prsgP s.p.seed.toNat s.p.count.toNat s.p.modulus.toNat))).setPrsgS
        (genLast s.inst.prsgP s.p.seed.toNat s.p.count.toNat)).complete := by
  rw [exec, execGen, beq_false_of_ne hm, decide_eq_false (Nat.not_lt.mpr hfit), firstRaise_cons_false,
    firstRaise_cons_false, firstRaise_nil, runCommand_body]
  rfl

/-- Settles O12: the completed state, with its symbols and last state read as the claim's sequence. -/
theorem genWritesSquaringSequence : Obligations.GenWritesSquaringSequence := by
  intro s hm hfit
  rw [exec_gen_of_fits hm hfit, genSymbols_eq_map_prsgState, genLast_eq_prsgState]
  rfl

/-- Settles O13: the first check answers, before `COUNT` is looked at. -/
theorem genZeroModulusFaults : Obligations.GenZeroModulusFaults := by
  intro s hm
  rw [exec, execGen, beq_iff_eq.mpr hm, firstRaise_cons_true, runCommand_check, takeFault_plain, encode_gen]
  rfl

/-- Settles O14: the second check answers; `COUNT`, and with it `VLMAX`, fits an information word unsaturated. -/
theorem genCountBeyondCapacityFaults : Obligations.GenCountBeyondCapacityFaults := by
  intro s hm hlt
  rw [exec, execGen, beq_false_of_ne hm, decide_eq_true hlt, firstRaise_cons_false, firstRaise_cons_true,
    runCommand_check, Raise.capacity, sat32_toNat, sat32_of_lt (hlt.trans s.p.count.isLt), takeFault_plain,
    encode_gen]
  rfl

/-! ### The symbols of a run (R147) -/

/-- `COUNT` decides how many symbols there are and not which: symbol `k` does not depend on it. -/
theorem element?_sym_of_exec_gen (hm : s.p.modulus ≠ 0#32) (hfit : s.p.count.toNat ≤ s.inst.vlmax)
    (h : exec .gen s = .next t) (k : Nat) :
    t.mem.sym.element? k =
      if k < s.p.count.toNat then
        some (BitVec.ofNat 32
          (Claims.prsgState s.inst.prsgP s.p.seed.toNat k % s.p.modulus.toNat))
      else none := by
  rw [genWritesSquaringSequence s hm hfit] at h
  cases h
  rw [Buffer.element?_ofList, List.getElem?_map]
  split
  · next hk => rw [List.getElem?_range hk, Option.map_some]
  · next hk => rw [List.getElem?_eq_none (by simpa using hk), Option.map_none]

theorem toNat_ofNat_mod_lt {m : Word} (hm : m ≠ 0#32) (n : Nat) :
    (BitVec.ofNat 32 (n % m.toNat)).toNat < m.toNat := by
  have hpos : 0 < m.toNat := Nat.pos_of_ne_zero fun h => hm (BitVec.eq_of_toNat_eq h)
  have hlt : n % m.toNat < m.toNat := Nat.mod_lt n hpos
  rwa [BitVec.toNat_ofNat, Nat.mod_eq_of_lt (hlt.trans m.isLt)]

/-- Settles O15: each symbol is a remainder by `MODULUS`, and below the smaller count both runs have the same
symbol. -/
theorem genSymbolsBelowModulus : Obligations.GenSymbolsBelowModulus := by
  intro s t hm hfit h
  have hsym := element?_sym_of_exec_gen hm hfit h
  refine ⟨fun k x hx => ?_, fun c hc => ?_⟩
  · obtain ⟨-, e⟩ := Option.ite_none_right_eq_some.mp ((hsym k).symm.trans hx)
    cases e
    exact toNat_ofNat_mod_lt hm _
  · have hfit' : c.toNat ≤ s.inst.vlmax := hc.trans hfit
    have hrun := exec_gen_of_fits (s := s.setParams { s.p with count := c }) hm hfit'
    have hsym' := element?_sym_of_exec_gen (s := s.setParams { s.p with count := c }) hm hfit' hrun
    refine ⟨_, hrun, fun k hk => ?_⟩
    rw [hsym, if_pos (hk.trans_le hc)]
    exact (hsym' k).trans (if_pos hk)

end Sys2Proof.Machine
end

section
/-! The filter kernel (spec 41_filter_kernel.md R160 to R173): the validation of a list of taps, the synthesis read
with the claims' taps and grid points, and the outcomes of KSYN. -/

namespace Sys2Proof.Machine

/-! ### The validation (R170, R171) -/

/-- A list of taps is reported at its first degenerate one, counted from the start index. -/
theorem firstDegenerate_zip {xs points : List Word} (hlen : xs.length = points.length) (i : Nat) {k : Nat}
    (hk : k < xs.length) (hbefore : ∀ j, j < k → F32.isNormal (xs.getD j 0#32) = true)
    (hbad : F32.isNormal (xs.getD k 0#32) = false) :
    firstDegenerate i (xs.zip points) = some (i + k, xs.getD k 0#32, points.getD k 0#32) := by
  induction xs generalizing points i k with
  | nil => exact absurd hk (Nat.not_lt_zero k)
  | cons x xs ih =>
    cases points with
    | nil => cases hlen
    | cons a points =>
      rw [List.zip_cons_cons, firstDegenerate]
      cases k with
      | zero =>
        have hx : F32.isNormal x = false := hbad
        rw [hx]
        rfl
      | succ k =>
        have hx : F32.isNormal x = true := hbefore 0 k.succ_pos
        rw [if_pos hx, ih (Nat.succ.inj hlen) (i + 1) (Nat.lt_of_succ_lt_succ hk)
          (fun j hj => hbefore (j + 1) (Nat.succ_lt_succ hj)) hbad, Nat.succ_add_eq_add_succ]
        rfl

theorem firstDegenerate_eq_none_iff {xs : List (Word × Word)} (i : Nat) :
    firstDegenerate i xs = none ↔ ∀ x ∈ xs.map Prod.fst, F32.isNormal x = true := by
  induction xs generalizing i with
  | nil => simp [firstDegenerate]
  | cons p xs ih =>
    obtain ⟨x, a⟩ := p
    rw [firstDegenerate, List.map_cons, List.forall_mem_cons, ← ih (i + 1)]
    cases F32.isNormal x <;> simp

theorem validate_eq_ok_iff {stage : Bool} {xs : List (Word × Word)} {ys : List Word} :
    validate stage xs = .ok ys ↔ ys = xs.map Prod.fst ∧ ∀ x ∈ ys, F32.isNormal x = true := by
  constructor
  · intro h
    obtain rfl := validate_ok h
    refine ⟨rfl, (firstDegenerate_eq_none_iff 0).mp ?_⟩
    unfold validate at h
    split at h
    · cases h
    · next hnone => exact hnone
  · rintro ⟨rfl, hnormal⟩
    rw [validate, (firstDegenerate_eq_none_iff 0).mpr hnormal]

theorem validate_zip_of_normal (stage : Bool) {xs points : List Word} (hlen : xs.length = points.length)
    (hnormal : ∀ x ∈ xs, F32.isNormal x = true) : validate stage (xs.zip points) = .ok xs :=
  validate_eq_ok_iff.mpr ⟨(List.map_fst_zip hlen.le).symm, hnormal⟩

theorem validate_zip_of_degenerate (stage : Bool) {xs points : List Word} (hlen : xs.length = points.length)
    {k : Nat} (hk : k < xs.length) (hbefore : ∀ j, j < k → F32.isNormal (xs.getD j 0#32) = true)
    (hbad : F32.isNormal (xs.getD k 0#32) = false) :
    validate stage (xs.zip points) = .error
      { code := .ktapDegenerate, info0 := xs.getD k 0#32, info1 := points.getD k 0#32
        aux := faultAux stage k } := by
  rw [validate, firstDegenerate_zip hlen 0 hk hbefore hbad, Nat.zero_add]

/-- `FAULT[31:8]` of a degenerate tap as a number: the stage above 23 bits of index (R171). -/
theorem faultAux_eq_ofNat (stage : Bool) (k : Nat) :
    faultAux stage k = BitVec.ofNat 24 (2 ^ 23 * stage.toNat + k % 2 ^ 23) := by
  have hk : k % 2 ^ 23 < 2 ^ 23 := Nat.mod_lt k (by decide)
  have hstage : stage.toNat < 2 := stage.toNat_lt
  apply BitVec.eq_of_toNat_eq
  rw [faultAux, BitVec.toNat_append, BitVec.toNat_ofNat, BitVec.toNat_ofNat, BitVec.toNat_ofBool,
    ← Nat.shiftLeft_add_eq_or_of_lt hk, Nat.shiftLeft_eq]
  omega

/-! ### The synthesis in the claims' terms (R164, R165, R168) -/

section Synthesis

variable {body : Word → Word → Word → Word} {limit : Word → Word → Word} {tol t beta d : Word} {n : Nat}
  {norm : Bool}

theorem gridPoints_eq_map (d : Word) (n : Nat) :
    gridPoints d n = (List.range n).map (Claims.gridPoint d n) := rfl

theorem getD_gridPoints {k : Nat} (hk : k < n) (d : Word) :
    (gridPoints d n).getD k 0#32 = Claims.gridPoint d n k := by
  simp [gridPoints_eq_map, hk]

theorem tap_eq_tapAt (body : Word → Word → Word → Word) (limit : Word → Word → Word) (tol t beta a : Word) :
    tap body limit tol a t beta = Claims.tapAt body limit tol t beta a := by
  simp only [tap, inWindow, Claims.tapAt, Bool.and_eq_true, Bool.not_eq_true', decide_eq_true_eq]
  rfl

theorem length_taps : (Claims.taps body limit tol t beta d n).length = n := by
  simp [Claims.taps]

theorem taps_zip_gridPoints :
    (gridPoints d n).map (fun a => (tap body limit tol a t beta, a)) =
      (Claims.taps body limit tol t beta d n).zip (gridPoints d n) := by
  simp only [tap_eq_tapAt, gridPoints_eq_map, Claims.taps, List.map_map, List.zip_map', Function.comp_def]

theorem synthesize_of_validate_error {r : Raise}
    (h : validate false ((Claims.taps body limit tol t beta d n).zip (gridPoints d n)) = .error r) :
    synthesize body limit tol t beta d n norm = .error r := by
  rw [synthesize, taps_zip_gridPoints, h]

theorem synthesize_of_validate_ok {xs : List Word}
    (h : validate false ((Claims.taps body limit tol t beta d n).zip (gridPoints d n)) = .ok xs) :
    synthesize body limit tol t beta d n norm =
      if norm then validate true ((xs.map fun x => F32.div x (Claims.leftSum xs)).zip (gridPoints d n))
      else .ok xs := by
  rw [synthesize, taps_zip_gridPoints, h]
  rfl

/-- Once every computed tap is normal, the flag decides whether their quotients by the sum are validated too. -/
theorem synthesize_of_normal
    (hnormal : ∀ x ∈ Claims.taps body limit tol t beta d n, F32.isNormal x = true) :
    synthesize body limit tol t beta d n norm =
      let xs := Claims.taps body limit tol t beta d n
      if norm then validate true ((xs.map fun x => F32.div x (Claims.leftSum xs)).zip (gridPoints d n))
      else .ok xs :=
  synthesize_of_validate_ok (validate_zip_of_normal false (length_taps.trans (length_gridPoints d n).symm) hnormal)

/-- Both stages end in a validation, so what the synthesis gives is normal, divided or not. -/
theorem isNormal_of_synthesize {xs : List Word} (h : synthesize body limit tol t beta d n norm = .ok xs) :
    ∀ x ∈ xs, F32.isNormal x = true := by
  cases hfirst : validate false ((Claims.taps body limit tol t beta d n).zip (gridPoints d n)) with
  | error r =>
    rw [synthesize_of_validate_error hfirst] at h
    cases h
  | ok ys =>
    rw [synthesize_of_validate_ok hfirst] at h
    cases norm with
    | false =>
      cases h
      exact (validate_eq_ok_iff.mp hfirst).2
    | true => exact (validate_eq_ok_iff.mp h).2

end Synthesis

/-- Settles O19: the first validation reports the tap, with stage bit 0. -/
theorem synthesisFaultsAtFirstComputedTap : Obligations.SynthesisFaultsAtFirstComputedTap := by
  intro body limit tol t beta d n k norm xs hk hbefore hbad
  have hlen : xs.length = n := length_taps
  have hreport := validate_zip_of_degenerate false (hlen.trans (length_gridPoints d n).symm) (hlen.symm ▸ hk)
    hbefore hbad
  rw [synthesize_of_validate_error hreport, getD_gridPoints hk, faultAux_eq_ofNat, Bool.toNat_false,
    Nat.mul_zero, Nat.zero_add]

/-- Settles O20: the computed taps pass, so the second validation reports, with stage bit 1. -/
theorem synthesisFaultsAtFirstNormalisedTap : Obligations.SynthesisFaultsAtFirstNormalisedTap := by
  intro body limit tol t beta d n k xs us hk hnormal hbefore hbad
  have hlen : us.length = n := (List.length_map _).trans length_taps
  have hreport := validate_zip_of_degenerate true (hlen.trans (length_gridPoints d n).symm) (hlen.symm ▸ hk)
    hbefore hbad
  rw [synthesize_of_normal hnormal]
  refine hreport.trans ?_
  rw [getD_gridPoints hk, faultAux_eq_ofNat, Bool.toNat_true, Nat.mul_one]

/-- Settles O21, from the length and the validations of the synthesis. -/
theorem synthesisedTapsAreNormal : Obligations.SynthesisedTapsAreNormal :=
  fun _ _ _ _ _ _ _ _ _ h => ⟨length_of_synthesize h, isNormal_of_synthesize h⟩

/-! ### The outcomes of KSYN (R165, R173) -/

/-- Settles O17: the one check answers; `KN`, and with it `VLMAX`, fits an information word unsaturated. -/
theorem ksynTapCountBeyondCapacityFaults : Obligations.KsynTapCountBeyondCapacityFaults := by
  intro s ra n hlt
  rw [exec, execKsyn, decide_eq_true hlt, firstRaise_cons_true, runCommand_check, Raise.capacity, sat32_toNat,
    sat32_of_lt (hlt.trans s.p.kn.isLt), takeFault_plain]
  rfl

/-- Settles O18: the check passes, and the body is the synthesis. -/
theorem ksynRunsSynthesis : Obligations.KsynRunsSynthesis := by
  intro s ra n hfit
  rw [exec, execKsyn, decide_eq_false (Nat.not_lt.mpr hfit), firstRaise_cons_false, firstRaise_nil,
    runCommand_body]
  cases synthesize Config.kbody Config.klimit s.inst.ksynTol s.p.kt s.p.kbeta s.p.kd s.p.kn.toNat n <;> rfl

/-- Settles O16: every validation the flag asks for passes, so the synthesis that KSYN runs gives the taps. -/
theorem ksynStoresTapsOfTheGrid : Obligations.KsynStoresTapsOfTheGrid := by
  intro s ra n xs hfit hnormal hquotients
  rw [ksynRunsSynthesis s ra n hfit, synthesize_of_normal hnormal]
  cases n with
  | false => rfl
  | true =>
    have hlen : (xs.map fun x => F32.div x (Claims.leftSum xs)).length =
        (gridPoints s.p.kd s.p.kn.toNat).length :=
      (List.length_map _).trans (length_taps.trans (length_gridPoints ..).symm)
    have hvalid := validate_zip_of_normal true hlen (List.forall_mem_map.mpr (hquotients rfl))
    simp only [if_true]
    rw [hvalid]

/-- Settles O22: the capacity check and the synthesis read the same registers in both states. -/
theorem ksynDependsOnItsParametersOnly : Obligations.KsynDependsOnItsParametersOnly := by
  intro s s' ra n ht hbeta hd hkn hinst
  rcases Nat.lt_or_ge s.inst.vlmax s.p.kn.toNat with hlt | hfit
  · refine .inl ⟨_, _, _, ksynTapCountBeyondCapacityFaults s ra n hlt, ?_⟩
    rw [hkn, hinst] at hlt ⊢
    exact ksynTapCountBeyondCapacityFaults s' ra n hlt
  · have hrun := ksynRunsSynthesis s ra n hfit
    have hrun' := ksynRunsSynthesis s' ra n (hkn ▸ hinst ▸ hfit)
    rw [← ht, ← hbeta, ← hd, ← hkn, ← hinst] at hrun'
    cases hsyn : synthesize Config.kbody Config.klimit s.inst.ksynTol s.p.kt s.p.kbeta s.p.kd s.p.kn.toNat n with
    | error r =>
      rw [hsyn] at hrun hrun'
      exact .inl ⟨_, _, _, hrun, hrun'⟩
    | ok xs =>
      rw [hsyn] at hrun hrun'
      exact .inr ⟨xs, length_of_synthesize hsyn, hrun, hrun'⟩

end Sys2Proof.Machine
end

section
/-! The convolution engine (spec 42_fft_convolution.md R190 to R205): the six steps of CONV read in the claims' terms,
its length checks, and the outcomes of CONV and VMUL. -/

namespace Sys2Proof.Machine

variable {s t : State} {ra rb rc : VReg}

/-! ### The six steps (R191 to R196) -/

/-- Within the size, element by element: the sample below the length, and a zero from there on (R192). -/
theorem pad_eq_zeroPad {xs : List Word} {size : Nat} (h : xs.length ≤ size) :
    pad xs size = Claims.zeroPad xs size := by
  refine List.ext_getElem (by simp [pad, Claims.zeroPad, h]) fun j hj _ => ?_
  rcases Nat.lt_or_ge j xs.length with hlt | hge
  · simp [pad, Claims.zeroPad, hlt, F32.posZero]
  · simp [pad, Claims.zeroPad, hge, F32.posZero]

theorem length_ifft (n : Nat) (x : List C32) : (F32.ifft n x).length = n := by simp [F32.ifft]

/-- Reading `n` places on, up to the end, is dropping the first `n` elements. -/
theorem map_range_getD_add {α β : Type} (f : α → β) (l : List α) (n : Nat) (d : α) :
    (List.range (l.length - n)).map (fun i => f (l.getD (i + n) d)) = (l.drop n).map f := by
  refine List.ext_getElem (by simp) fun i hi _ => ?_
  have hlt : n + i < l.length := Nat.add_lt_of_lt_sub' (by simpa using hi)
  simp [hlt, Nat.add_comm i n]

/-- Both operands fit the transform, and the quotients run over what the inverse transform gives after `shift`
samples (R193). -/
theorem convolve_eq_convolution {signal kernel : List Word} (hsignal : signal ≠ []) (hkernel : kernel ≠ []) :
    convolve F32.fft F32.ifft signal kernel = Claims.convolution signal kernel := by
  have hs : 0 < signal.length := List.length_pos_iff.mpr hsignal
  have hk : 0 < kernel.length := List.length_pos_iff.mpr hkernel
  have hps := pad_eq_zeroPad (xs := signal) (size := signal.length + kernel.length - 1) (by omega)
  have hpk := pad_eq_zeroPad (xs := kernel) (size := signal.length + kernel.length - 1) (by omega)
  simp only [convolve, Claims.convolution, convSize, convShift, hps, hpk]
  rw [← map_range_getD_add _ _ _ default, length_ifft]
  rfl

/-! ### The checks of CONV (R194, R199) -/

theorem sat32_eq_saturate (n : Nat) : sat32 n = Claims.saturate n := rfl

theorem convCheck_of_degenerate {m k : Nat} (vlmax : Nat) (h : m = 0 ∨ k = 0 ∨ (m = 1 ∧ k = 1)) :
    convCheck m k vlmax = some (Raise.plain .emptyInput (sat32 m) (sat32 k)) := by
  have hdegenerate : m = 0 ∨ k = 0 ∨ convSize m k < 2 := by simp only [convSize]; omega
  rw [convCheck, decide_eq_true hdegenerate, firstRaise_cons_true]

theorem convCheck_of_beyond {m k vlmax : Nat} (hm : m ≠ 0) (hk : k ≠ 0) (hsize : 2 ≤ m + k - 1)
    (hlt : vlmax < m + k - 1 - k / 2) :
    convCheck m k vlmax = some (Raise.capacity (m + k - 1 - k / 2) vlmax) := by
  have hnonempty : ¬ (m = 0 ∨ k = 0 ∨ convSize m k < 2) := by simp only [convSize]; omega
  have hcapacity : vlmax < convSize m k - convShift k := hlt
  rw [convCheck, decide_eq_false hnonempty, decide_eq_true hcapacity, firstRaise_cons_false, firstRaise_cons_true]
  rfl

/-! ### A command that completes -/

/-- A command that leaves the block without a fault has completed (60_exceptions.md R324). -/
theorem runCommand_completes {α : Type} {i : Instr} {check : Option Raise} {operands : Option α}
    {body : α → Except Raise State} (h : runCommand i s check operands body = .next t) (hfree : FaultFree t) :
    ∃ xs u, operands = some xs ∧ body xs = .ok u ∧ t = u.complete := by
  rcases runCommand_next h with ⟨r, rfl, -⟩ | ⟨xs, u, -, hxs, hbody, ht⟩
  · cases hfree
  · exact ⟨xs, u, hxs, hbody, ht⟩

/-- Below its length, and only there, a written sequence has a value (10_state.md R48). -/
theorem Buffer.isSome_element?_ofList {α : Type} (xs : List α) (k : Nat) :
    ((Buffer.ofList xs).element? k).isSome = decide (k < xs.length) := by
  rw [Buffer.element?_ofList]
  rcases Nat.lt_or_ge k xs.length with hlt | hge
  · simp [hlt]
  · simp [hge]

/-! ### The outcomes of CONV (R193 to R199) -/

/-- Settles O27: the checks pass, and the body is the six steps. -/
theorem convDividesShiftedProduct : Obligations.ConvDividesShiftedProduct := by
  intro s ra rb rc signal kernel hsignal hkernel hs hk hsize hfit
  have hcheck : convCheck (s.vlength rb) (s.vlength rc) s.inst.vlmax = none := by
    rw [State.vlength_of_source hsignal, State.vlength_of_source hkernel]
    exact convCheck_eq_none (mt List.eq_nil_of_length_eq_zero hs) (mt List.eq_nil_of_length_eq_zero hk) hsize hfit
  rw [exec, execConv, hcheck, State.source2_eq_some.mpr ⟨hsignal, hkernel⟩, runCommand_body,
    ← convolve_eq_convolution hs hk]
  rfl

/-- Settles O28: the first check answers, with the lengths as information words. -/
theorem convDegenerateLengthsFault : Obligations.ConvDegenerateLengthsFault := by
  intro s ra rb rc hdegenerate
  rw [exec, execConv, convCheck_of_degenerate _ hdegenerate, runCommand_check, takeFault_plain,
    sat32_eq_saturate, sat32_eq_saturate]
  rfl

/-- Settles O29: the second check answers, with the length the result would have. -/
theorem convBeyondCapacityFaults : Obligations.ConvBeyondCapacityFaults := by
  intro s ra rb rc hm hk hsize hlt
  rw [exec, execConv, convCheck_of_beyond hm hk hsize hlt, runCommand_check, Raise.capacity, takeFault_plain,
    sat32_eq_saturate, sat32_eq_saturate]
  rfl

/-- Settles O30: the destination is the buffer of a sequence, whose length is that of the valid prefix. -/
theorem convLengthIsValidPrefix : Obligations.ConvLengthIsValidPrefix := by
  intro s t ra rb rc _ h hfree
  obtain ⟨⟨signal, kernel⟩, u, hoperands, hbody, rfl⟩ := runCommand_completes h hfree
  obtain ⟨hsignal, hkernel⟩ := State.source2_eq_some.mp hoperands
  cases hbody
  rw [State.vlength, State.vreg_complete, State.vreg_setV_self, Buffer.len_ofList]
  refine ⟨?_, Buffer.isSome_element?_ofList _⟩
  rw [length_convolve, State.vlength_of_source hsignal, State.vlength_of_source hkernel]
  rfl

/-! ### The outcome of VMUL (R205) -/

/-- On lists of one length, elementwise is index by index. -/
theorem zipWith_eq_map_range {α β γ : Type} (f : α → β → γ) {xs : List α} {ys : List β}
    (hlen : xs.length = ys.length) (a : α) (b : β) :
    List.zipWith f xs ys = (List.range xs.length).map fun k => f (xs.getD k a) (ys.getD k b) := by
  refine List.ext_getElem (by simp [hlen]) fun k hk _ => ?_
  rw [List.length_zipWith, Nat.lt_min] at hk
  obtain ⟨hx, hy⟩ := hk
  simp [hx, hy]

/-- Settles O31: the lengths agree, so the check passes and no sample is cut off. -/
theorem vmulMultipliesInPlace : Obligations.VmulMultipliesInPlace := by
  intro s ra rb xs ys hxs hys hlen
  have hcheck : lengthCheck s ra rb = none :=
    lengthCheck_eq_none (by rw [State.vlength_of_source hxs, State.vlength_of_source hys, hlen])
  rw [exec, execVmul, hcheck, State.source2_eq_some.mpr ⟨hxs, hys⟩, runCommand_body,
    ← zipWith_eq_map_range F32.mul hlen]
  rfl

end Sys2Proof.Machine
end

section
/-! The complex upsampler (spec 43_complex_upsampler.md R220 to R233): the branches of MAP read index by index, the
output of STRETCH read as runs of held samples, and the outcomes of both commands. -/

namespace Sys2Proof.Machine

variable {s : State} {rb : VReg} {h : Bool}

/-! ### The branches of MAP (R221 to R225) -/

/-- The header is a run of zero symbols in front (R221). -/
theorem toNat_getD_header_append (header : Nat) (symbols : List Word) (k : Nat) :
    ((List.replicate header 0#32 ++ symbols).getD k 0#32).toNat =
      if k < header then 0 else (symbols.getD (k - header) 0#32).toNat := by
  rcases Nat.lt_or_ge k header with hheader | hsymbol
  · simp [List.getElem?_append_left, hheader]
  · simp [List.getElem?_append_right, hsymbol, Nat.not_lt.mpr hsymbol]

theorem phaseIndex_eq_mapIndex (o : Bool) (symbols : List Word) (k : Nat) :
    phaseIndex o k ((List.replicate Config.headerLen 0#32 ++ symbols).getD k 0#32) =
      Claims.mapIndex o symbols k := by
  rw [phaseIndex, toNat_getD_header_append]
  simp [Claims.mapIndex, Config.headerLen, Config.nstates]

/-- A map over a list with its indices is a map over the indices. -/
theorem map_zipIdx_eq_map_range {α β : Type} (f : α × Nat → β) (l : List α) (d : α) :
    l.zipIdx.map f = (List.range l.length).map fun k => f (l.getD k d, k) := by
  refine List.ext_getElem (by simp) fun k hk _ => ?_
  have hlt : k < l.length := by simpa using hk
  simp [hlt]

theorem mapPoints_eq_map_mapPair (rom : Vector (Word × Word) 8) (o : Bool) (symbols : List Word) :
    mapPoints rom o symbols = (List.range (8 + symbols.length)).map (Claims.mapPair rom o symbols) := by
  rw [mapPoints, map_zipIdx_eq_map_range _ _ 0#32, List.length_append, List.length_replicate]
  simp only [mapPoint, phaseIndex_eq_mapIndex]
  rfl

/-! ### The outcomes of MAP (R222, R227) -/

/-- Settles O23: the check passes, and the points are the claim's pairs. -/
theorem mapWritesBothBranches : Obligations.MapWritesBothBranches := by
  intro s ra rb o symbols _ hsymbols hfit
  have hcapacity : ¬ s.inst.vlmax < Config.headerLen + s.mem.sym.len := Nat.not_lt.mpr hfit
  have hsource : s.symbols = some symbols := hsymbols
  rw [exec, execMap, decide_eq_false hcapacity, firstRaise_cons_false, firstRaise_nil, hsource, runCommand_body]
  simp only [mapPoints_eq_map_mapPair, List.map_map]
  rfl

/-- Settles O24: the one check answers, before a symbol is read. -/
theorem mapBeyondCapacityFaults : Obligations.MapBeyondCapacityFaults := by
  intro s ra rb o _ hlt
  have hcapacity : s.inst.vlmax < Config.headerLen + s.mem.sym.len := hlt
  rw [exec, execMap, decide_eq_true hcapacity, firstRaise_cons_true, runCommand_check, Raise.capacity,
    takeFault_plain, sat32_eq_saturate, sat32_eq_saturate]
  rfl

/-! ### The output of STRETCH (R230) -/

/-- Every element `per` times in order, and the last one `rem` times more (R230). -/
def heldSamples (desired : Nat) (xs : List Word) : List Word :=
  xs.flatMap (List.replicate (desired / xs.length)) ++
    List.replicate (desired % xs.length) (xs.getLastD 0#32)

/-- With every element `per` times, place `i` holds element `i / per`. -/
theorem getElem?_flatMap_replicate {α : Type} (xs : List α) {per : Nat} (hper : 0 < per) (i : Nat) :
    (xs.flatMap (List.replicate per))[i]? = xs[i / per]? := by
  induction xs generalizing i with
  | nil => rfl
  | cons x xs ih =>
    rw [List.flatMap_cons]
    rcases Nat.lt_or_ge i per with hlt | hge
    · rw [List.getElem?_append_left (by simpa using hlt), Nat.div_eq_of_lt hlt]
      simp [hlt]
    · rw [List.getElem?_append_right (by simpa using hge), List.length_replicate, ih,
        Nat.div_eq_sub_div hper hge, List.getElem?_cons_succ]

theorem length_flatMap_replicate {α : Type} (xs : List α) (per : Nat) :
    (xs.flatMap (List.replicate per)).length = per * xs.length := by
  simp [List.length_flatMap, Nat.mul_comm]

theorem length_heldSamples (desired : Nat) (xs : List Word) : (heldSamples desired xs).length = desired := by
  rw [heldSamples, List.length_append, length_flatMap_replicate, List.length_replicate, Nat.mul_comm,
    Nat.div_add_mod]

/-- Output sample `i` is a copy of the element that STRETCH looks up for it (R230). -/
theorem getElem?_heldSamples {desired i : Nat} {xs : List Word} (hxs : xs ≠ []) (hi : i < desired) :
    (heldSamples desired xs)[i]? = xs[stretchIndex xs.length desired i]? := by
  simp only [stretchIndex, heldSamples]
  have hlen := length_flatMap_replicate xs (desired / xs.length)
  split
  · next hrun =>
    have hper : 0 < desired / xs.length := Nat.pos_of_mul_pos_right (Nat.zero_lt_of_lt hrun)
    rw [List.getElem?_append_left (by rwa [hlen]), getElem?_flatMap_replicate xs hper]
  · next hrest =>
    have hrem : i - desired / xs.length * xs.length < desired % xs.length := by
      have := Nat.div_add_mod' desired xs.length
      omega
    rw [List.getElem?_append_right (by rw [hlen]; exact Nat.not_lt.mp hrest), hlen,
      List.getElem?_replicate_of_lt hrem, ← List.getLast?_eq_getElem?, List.getLast?_eq_some_getLast hxs,
      List.getLastD_eq_getLast?, List.getLast?_eq_some_getLast hxs, Option.getD_some]

/-- Over a written source within the capacity, every copy is there, and the copies are the held samples. -/
theorem stretchSource_eq_heldSamples {xs : List Word} (hsource : s.source rb = some xs) (hxs : xs ≠ [])
    (hfit : stretchDesired h s ≤ s.inst.vlmax) :
    stretchSource h rb s = some (heldSamples (stretchDesired h s) xs) := by
  have hcopies : (List.range (stretchDesired h s)).map (fun i =>
      (s.vreg rb).element? (stretchIndex xs.length (stretchDesired h s) i)) =
        (heldSamples (stretchDesired h s) xs).map some := by
    refine List.ext_getElem (by simp [length_heldSamples]) fun i hi _ => ?_
    have hlt : i < stretchDesired h s := by simpa using hi
    rw [List.getElem_map, List.getElem_map, List.getElem_range, Buffer.element?_of_contents hsource,
      ← getElem?_heldSamples hxs hlt, List.getElem?_eq_getElem]
  simp only [stretchSource, if_pos hfit, State.vlength_of_source hsource, hcopies, allSome_map_some]

/-! ### The checks of STRETCH (R231 to R233) -/

theorem stretchParam_eq_false (hbaud : h = true → s.p.baud ≠ 0#32) : (h && s.p.baud == 0#32) = false := by
  cases h with
  | false => rfl
  | true => exact beq_false_of_ne (hbaud rfl)

theorem stretchCheck_of_zero_baud (hflag : h = true) (hbaud : s.p.baud = 0#32) :
    stretchCheck h rb s = some (Raise.plain .param 2#32 0#32) := by
  rw [stretchCheck, hflag, beq_iff_eq.mpr hbaud, Bool.and_self, firstRaise_cons_true]

theorem stretchCheck_of_empty (hbaud : h = true → s.p.baud ≠ 0#32) (hlen : s.vlength rb = 0) :
    stretchCheck h rb s = some (Raise.plain .emptyInput 0#32 (sat32 (stretchDesired h s))) := by
  rw [stretchCheck, stretchParam_eq_false hbaud, beq_iff_eq.mpr hlen, firstRaise_cons_false, firstRaise_cons_true]

theorem stretchCheck_of_beyond (hbaud : h = true → s.p.baud ≠ 0#32) (hlen : s.vlength rb ≠ 0)
    (hlt : s.inst.vlmax < stretchDesired h s) :
    stretchCheck h rb s = some (Raise.capacity (stretchDesired h s) s.inst.vlmax) := by
  rw [stretchCheck, stretchParam_eq_false hbaud, beq_false_of_ne hlen, decide_eq_true hlt, firstRaise_cons_false,
    firstRaise_cons_false, firstRaise_cons_true]

/-! ### The outcomes of STRETCH (R230 to R233) -/

/-- Settles O25: the checks pass, and the operands are the held samples. -/
theorem stretchHoldsSamples : Obligations.StretchHoldsSamples := by
  intro s ra rb h xs hbaud hsource hxs hfit
  have hlen : s.vlength rb ≠ 0 := by
    rw [State.vlength_of_source hsource]
    exact mt List.eq_nil_of_length_eq_zero hxs
  rw [desired_eq_stretchDesired] at hfit ⊢
  rw [exec, execStretch, stretchCheck_eq_none hbaud hlen hfit, stretchSource_eq_heldSamples hsource hxs hfit,
    runCommand_body]
  rfl

/-- A plain fault that the checks of STRETCH find is what the command ends in. -/
theorem exec_stretch_of_check {ra : VReg} {code : FaultCode} {info0 info1 : Word}
    (hcheck : stretchCheck h rb s = some (Raise.plain code info0 info1)) :
    exec (.stretch ra rb h) s = .next
      (Claims.faultedWith s (encode (.stretch ra rb h)) (code.code.setWidth 32) info0 info1) := by
  rw [exec, execStretch, hcheck, runCommand_check, takeFault_plain]

/-- Settles O26: each clause is the first check that finds a fault. -/
theorem stretchFaultsInOrder : Obligations.StretchFaultsInOrder := by
  intro s ra rb h
  refine ⟨fun hflag hbaud => ?param, fun hbaud hlen => ?emptyInput, fun hbaud hlen hlt => ?capacity⟩
  case param => exact exec_stretch_of_check (stretchCheck_of_zero_baud hflag hbaud)
  case emptyInput => exact exec_stretch_of_check (stretchCheck_of_empty hbaud hlen)
  case capacity => exact exec_stretch_of_check (stretchCheck_of_beyond hbaud hlen hlt)

end Sys2Proof.Machine
end

section
/-! The quadrature mixer (spec 44_quadrature_mixer.md R251 to R253): the samples of MIX read index by index, its
completion, and the one length check that VMUL, MIX and VACC without `I` share. -/

namespace Sys2Proof.Machine

variable {s : State} {j k : VReg}

/-! ### The samples of MIX (R251, R252) -/

/-- The model's phase is the claim's, whose constants 2.0 and pi stand as patterns (R251). -/
theorem theta_eq_carrierPhase (fc fs : Word) (n : Nat) : theta fc fs n = Claims.carrierPhase fc fs n := rfl

/-- On branches of one length, a sample pair with its index is what both branches hold at that index (R252). -/
theorem mixSamples_eq_map_mixed (fc fs : Word) {is qs : List Word} (hlen : is.length = qs.length) :
    mixSamples fc fs is qs = (List.range is.length).map (Claims.mixed fc fs is qs) := by
  refine List.ext_getElem (by simp [length_mixSamples, hlen]) fun n hn _ => ?_
  rw [length_mixSamples, Nat.lt_min] at hn
  obtain ⟨hi, hq⟩ := hn
  simp [mixSamples, mixSample, Claims.mixed, theta_eq_carrierPhase, hi, hq]

/-! ### The outcome of MIX (R252) -/

theorem lengthCheck_of_source {xs ys : List Word} (hxs : s.source j = some xs) (hys : s.source k = some ys)
    (hlen : xs.length = ys.length) : lengthCheck s j k = none :=
  lengthCheck_eq_none (by rw [State.vlength_of_source hxs, State.vlength_of_source hys, hlen])

/-- Settles O32: the lengths agree, so the check passes and no sample is cut off. -/
theorem mixModulatesCarrier : Obligations.MixModulatesCarrier := by
  intro s ra rb rc is qs his hqs hlen
  rw [exec, execMix, lengthCheck_of_source his hqs hlen, State.source2_eq_some.mpr ⟨his, hqs⟩, runCommand_body,
    ← mixSamples_eq_map_mixed s.p.fc s.p.fs hlen]
  rfl

/-! ### Operands of unequal length (R253; 42_fft_convolution.md R205; 45_vector_accumulator.md R268) -/

/-- A command whose check compares two lengths faults on unequal ones, whatever it would read and compute
(60_exceptions.md R321). -/
theorem runCommand_lengthCheck_of_ne {α : Type} {i : Instr} {operands : Option α} {body : α → Except Raise State}
    (hne : s.vlength j ≠ s.vlength k) :
    runCommand i s (lengthCheck s j k) operands body = .next
      (Claims.faultedWith s (encode i) 2#32 (Claims.saturate (s.vlength j)) (Claims.saturate (s.vlength k))) := by
  rw [lengthCheck_eq_some hne, runCommand_check, takeFault_plain, sat32_eq_saturate, sat32_eq_saturate]
  rfl

/-- Settles O34: all three commands have the same check, VACC where its flag is clear. -/
theorem lengthMismatchFaults : Obligations.LengthMismatchFaults := by
  intro s ra rb rc
  refine ⟨fun hne => ⟨?vmul, ?vacc⟩, fun hne => ?mix⟩
  case vmul => exact runCommand_lengthCheck_of_ne hne
  case vacc => exact runCommand_lengthCheck_of_ne hne
  case mix => exact runCommand_lengthCheck_of_ne hne

end Sys2Proof.Machine
end

section
/-! The vector accumulator (spec 45_vector_accumulator.md R267 to R269): what VACC reads with and without `I`, and its
completion. -/

namespace Sys2Proof.Machine

variable {s : State} {ra rb : VReg} {xs ys : List Word}

/-! ### The result of VACC (R267) -/

/-- With `I` the accumulator is not looked at (R269). -/
theorem vaccResult_copy : vaccResult ra rb true s = s.source rb := rfl

/-- Without `I`, written operands of one length are added index by index. -/
theorem vaccResult_sum (hxs : s.source ra = some xs) (hys : s.source rb = some ys) (hlen : xs.length = ys.length) :
    vaccResult ra rb false s =
      some ((List.range xs.length).map fun k => F32.add (xs.getD k 0#32) (ys.getD k 0#32)) := by
  rw [← zipWith_eq_map_range F32.add hlen]
  simp [vaccResult, State.source2_eq_some.mpr ⟨hxs, hys⟩]

/-! ### The outcome of VACC (R267, R269) -/

/-- VACC completes with its result once its length check, which is made without `I` only, has passed. -/
theorem execVacc_completes {init : Bool} {out : List Word}
    (hcheck : (if init then none else lengthCheck s ra rb) = none) (hout : vaccResult ra rb init s = some out) :
    execVacc ra rb init s = .next (Claims.completedV s ra out) := by
  rw [execVacc, hcheck, hout, runCommand_body]
  rfl

/-- Settles O33: with `I` there is no check and the result is the addend; without it the lengths agree, so the check
passes and the result is the sum. -/
theorem vaccAddsOrCopies : Obligations.VaccAddsOrCopies := by
  intro s ra rb ys hys
  refine ⟨?copy, fun xs hxs hlen => ?sum⟩
  case copy => exact execVacc_completes rfl (vaccResult_copy.trans hys)
  case sum => exact execVacc_completes (lengthCheck_of_source hxs hys hlen) (vaccResult_sum hxs hys hlen)

end Sys2Proof.Machine
end

section
/-! The fixed-point quantizer (spec 46_fixed_point_quantizer.md R281 to R286): the two integer conversions and the wrap
to 16 bits, the outcomes of one sample, and the completion and the faults of QUANT. -/

namespace Sys2Proof.Machine

/-! ### The integer conversions (R281; 00_scope.md R10) -/

/-- The rounded quotient is within half a divisor of the exact one, and even where it is half a divisor off. -/
theorem F32.rneDiv_nearest (n d : Nat) (hd : 0 < d) :
    2 * ((d : Int) * F32.rneDiv n d - n).natAbs ≤ d ∧
    (2 * ((d : Int) * F32.rneDiv n d - n).natAbs = d → F32.rneDiv n d % 2 = 0) := by
  have hdiv : (d : Int) * (n / d : Nat) + (n % d : Nat) = n := by exact_mod_cast Nat.div_add_mod n d
  have hmod : n % d < d := Nat.mod_lt n hd
  rcases F32.rneDiv_cases n d with ⟨hr, hside, htie⟩ | ⟨hr, hside, htie⟩
  · have hoff : ((d : Int) * (n / d : Nat) - n).natAbs = n % d := by omega
    rw [hr, hoff]
    exact ⟨hside, htie⟩
  · have hoff : ((d : Int) * (n / d + 1 : Nat) - n).natAbs = d - n % d := by
      rw [Nat.cast_add_one, mul_add_one]
      omega
    rw [hr, hoff]
    omega

theorem F32.toInt_trunc (x : Word) : F32.toInt .trunc x = (F32.scaled x).tdiv (2 ^ 149) := by
  have hquot : ((F32.scaledMag x / 2 ^ 149 : Nat) : Int) = (F32.scaledMag x : Int).tdiv (2 ^ 149) := rfl
  simp only [F32.toInt, F32.scaled, hquot]
  split
  · rw [Int.neg_tdiv]
  · rfl

/-- Rounding to the nearest commutes with the sign, so it is `rneDiv` on the magnitudes. -/
theorem F32.toInt_nearestEven_error (x : Word) :
    (2 ^ 149 * F32.toInt .nearestEven x - F32.scaled x).natAbs =
      ((2 ^ 149 : Nat) * F32.rneDiv (F32.scaledMag x) (2 ^ 149) - F32.scaledMag x : Int).natAbs := by
  simp only [F32.toInt, F32.scaled]
  split
  · rw [← Int.natAbs_neg]
    congr 1
    push_cast
    ring
  · rfl

theorem F32.toInt_nearestEven_even (x : Word) (h : F32.rneDiv (F32.scaledMag x) (2 ^ 149) % 2 = 0) :
    F32.toInt .nearestEven x % 2 = 0 := by
  simp only [F32.toInt]
  split <;> omega

/-- Settles O37: truncation is the quotient of the magnitudes with the sign put back, and so is rounding. -/
theorem integerConversionRoundsAsSelected : Obligations.IntegerConversionRoundsAsSelected := by
  intro x
  obtain ⟨hhalf, htie⟩ := F32.rneDiv_nearest (F32.scaledMag x) (2 ^ 149) (Nat.two_pow_pos 149)
  rw [F32.toInt_nearestEven_error]
  exact ⟨F32.toInt_trunc x, hhalf, fun heq => F32.toInt_nearestEven_even x (htie heq)⟩

/-! ### The wrap to 16 bits (R284; 00_scope.md R10) -/

/-- A 16-bit word built from an integer and read as a signed number is the balanced remainder. -/
theorem F32.toInt_wrap16 (z : Int) : (F32.wrap16 z).toInt = z.bmod 65536 := BitVec.toInt_ofInt z

/-- Settles O38: the balanced remainder is congruent to its operand and lies in the 16-bit range. -/
theorem wrapKeepsLowSixteenBits : Obligations.WrapKeepsLowSixteenBits := by
  intro z
  rw [F32.toInt_wrap16]
  exact ⟨Int.bmod_emod, Int.le_bmod (by decide), Int.le_of_lt_add_one (Int.bmod_lt (by decide))⟩

/-! ### One sample (R282 to R285) -/

section Sample

variable {mode : QRound} {gain y : Word}

theorem quantSample_of_nonfinite (k : Nat) (hy : F32.isFinite y = false) :
    quantSample mode k y = .error (Raise.plain .quantNonfinite (sat32 k) y) := by
  simp [quantSample, hy]

theorem quantSample_of_out_of_range (k : Nat) (hy : F32.isFinite y = true) (hconv : ¬ Claims.convertible mode y) :
    quantSample mode k y = .error (Raise.plain .quantRange (sat32 k) y) := by
  have hrange : F32.toInt mode y < -2 ^ 31 ∨ 2 ^ 31 - 1 < F32.toInt mode y := by
    by_contra hfits
    exact hconv ⟨hy, by omega, by omega⟩
  simp only [quantSample, hy, Bool.not_true, Bool.false_eq_true, if_false, if_pos hrange]

/-! ### The samples in index order (R282, R323) -/

theorem quantSamples_of_convertible {xs : List Word} (k : Nat)
    (h : ∀ x ∈ xs, Claims.convertible mode (F32.mul gain x)) :
    quantSamples mode gain k (xs.map some) =
      some (.ok (xs.map fun x => F32.wrap16 (F32.toInt mode (F32.mul gain x)))) := by
  induction xs generalizing k with
  | nil => rfl
  | cons x xs ih =>
    obtain ⟨hx, hxs⟩ := List.forall_mem_cons.mp h
    simp only [List.map_cons, quantSamples, quantSample_of_convertible k hx, ih (k + 1) hxs]

/-- The first sample that faults ends the command in its fault, whatever stands after it (R282). -/
theorem quantSamples_of_error {l : List (Option Word)} {m : Nat} {e : Word} {r : Raise} (k : Nat)
    (hm : l[m]? = some (some e))
    (hbefore : ∀ j < m, ∃ x, l[j]? = some (some x) ∧ Claims.convertible mode (F32.mul gain x))
    (he : quantSample mode (k + m) (F32.mul gain e) = .error r) :
    quantSamples mode gain k l = some (.error r) := by
  induction l generalizing m k with
  | nil => cases hm
  | cons o rest ih =>
    cases m with
    | zero =>
      cases hm
      rw [Nat.add_zero] at he
      simp only [quantSamples, he]
    | succ m =>
      obtain ⟨x, hx, hconv⟩ := hbefore 0 (Nat.zero_lt_succ m)
      cases hx
      have hrest : quantSamples mode gain (k + 1) rest = some (.error r) :=
        ih (k + 1) hm (fun j hj => hbefore (j + 1) (Nat.succ_lt_succ hj)) (by rwa [Nat.succ_add_eq_add_succ])
      simp only [quantSamples, quantSample_of_convertible k hconv, hrest]

end Sample

/-! ### The outcomes of QUANT (R282 to R286) -/

/-- An element with a value is below the length. -/
theorem Buffer.getElem?_elements_of_some {α : Type} {b : Buffer α} {k : Nat} {x : α} (h : b.element? k = some x) :
    b.elements[k]? = some (some x) := by
  have hk : k < b.len := by
    by_contra hge
    rw [Buffer.element?, if_neg hge] at h
    cases h
  rw [Buffer.getElem?_elements b hk, h]

/-- Settles O35: over a written source whose products all convert, there are samples and no fault. -/
theorem quantWrapsProducts : Obligations.QuantWrapsProducts := by
  intro s rb xs hsource hconv
  simp only [exec, execQuant]
  rw [Buffer.elements_of_contents hsource, quantSamples_of_convertible 0 hconv, runCommand_body]
  rfl

/-- The fault of the first sample that does not convert is what the command ends in. -/
theorem exec_quant_of_error {s : State} {rb : VReg} {k : Nat} {e info0 info1 : Word} {code : FaultCode}
    (hk : (s.vreg rb).element? k = some e)
    (hbefore : ∀ j < k, ∃ x, (s.vreg rb).element? j = some x ∧
      Claims.convertible s.inst.qround (F32.mul s.p.gain x))
    (he : quantSample s.inst.qround k (F32.mul s.p.gain e) = .error (Raise.plain code info0 info1)) :
    exec (.quant rb) s = .next
      (Claims.faultedWith s (encode (.quant rb)) (code.code.setWidth 32) info0 info1) := by
  have hsamples : quantSamples s.inst.qround s.p.gain 0 (s.vreg rb).elements =
      some (.error (Raise.plain code info0 info1)) := by
    refine quantSamples_of_error 0 (Buffer.getElem?_elements_of_some hk) (fun j hj => ?_) (by rwa [Nat.zero_add])
    obtain ⟨x, hx, hconv⟩ := hbefore j hj
    exact ⟨x, Buffer.getElem?_elements_of_some hx, hconv⟩
  simp only [exec, execQuant]
  rw [hsamples, runCommand_body, ← takeFault_plain]
  rfl

/-- Settles O36: the two clauses are the two ways a sample faults. -/
theorem quantFaultsAtFirstBadSample : Obligations.QuantFaultsAtFirstBadSample := by
  intro s rb k e hk hbefore
  refine ⟨fun hnonfinite => ?nonfinite, fun hfin hconv => ?range⟩
  case nonfinite => exact exec_quant_of_error hk hbefore (quantSample_of_nonfinite k hnonfinite)
  case range => exact exec_quant_of_error hk hbefore (quantSample_of_out_of_range k hfin hconv)

end Sys2Proof.Machine
end

section
/-! Exceptions and reset (spec 60_exceptions.md R321 to R328; 70_reset_and_hazards.md R360, R361): what a command and a
served event can do to the fault record, and with that who sets and who clears `FAULTED`. -/

namespace Sys2Proof.Machine

variable {s t : State} {e : HostEvent} {w : Word} {rest : List HostEvent}

/-! ### Fault entry of a command (R321, R324, R325) -/

theorem takeFault_eq_faultedWith (s : State) (w : Word) (r : Raise) :
    s.takeFault w r = Claims.faultedWith s w (faultWord r.aux r.code) r.info0 r.info1 := rfl

/-- `FAULT[7:0]` holds the code, whatever the auxiliary field is (R325). -/
theorem faultWord_mod_256 (aux : BitVec 24) (code : FaultCode) :
    (faultWord aux code).toNat % 256 = code.code.toNat := by
  have hword := toNat_faultWord aux code
  have hcode := code.code.isLt
  omega

/-- Settles O41: the two ways a command ends, and the range of the fault codes. -/
theorem commandsFaultPreciselyOrCount : Obligations.CommandsFaultPreciselyOrCount := by
  intro s t i h
  rcases exec_next h with ⟨r, rfl⟩ | ⟨u, rfl, -, hfr, hcnt⟩
  · refine .inr ⟨_, _, _, takeFault_eq_faultedWith s (encode i) r, ?_⟩
    rw [faultWord_mod_256]
    exact r.code.code_range
  · exact .inl ⟨hfr, congrArg (· + 1#32) hcnt⟩

/-! ### `CMD` writes that run no command (R322, R326) -/

theorem issue_of_faulted (hf : s.fr.faulted = true) : issue s w = .done (s.respond .ack) := if_pos hf

theorem issue_of_decode_error {c : Illegal} (hf : s.fr.faulted = false) (hd : decode w = .error c) :
    issue s w = .done ((s.takeFault w (Raise.plain .illegalCmd w 0#32)).respond .ack) := by
  simp [issue, hf, hd]

/-- A `CMD` write that the dispatcher is done with ends the step. -/
theorem step_commandWrite_of_done (h : s.inbox = commandWrite w :: rest)
    (hi : issue (s.withInbox rest) w = .done t) : step s = .next t :=
  step_done h ((serve_commandWrite _ w).trans hi)

/-- Settles O6: the dispatcher takes the fault itself. -/
theorem illegalWordFaults : Obligations.IllegalWordFaults := by
  intro s w c rest h hf hd
  rw [step_commandWrite_of_done h (issue_of_decode_error (s := s.withInbox rest) hf hd), takeFault_plain]
  rfl

/-- Settles O7: under `FAULTED` the dispatcher does not look at the word. -/
theorem commandIgnoredUnderFault : Obligations.CommandIgnoredUnderFault :=
  fun s _ rest h hf => step_commandWrite_of_done h (issue_of_faulted (s := s.withInbox rest) hf)

/-! ### The reset input (70_reset_and_hazards.md R360) -/

/-- Settles O3: the reset input is served by the reset and no response. -/
theorem pinResetGivesResetState : Obligations.PinResetGivesResetState :=
  fun _ _ h => step_done h rfl

/-! ### The fault record and the served event (R326 to R328) -/

/-- What an event served without running a command does to the fault record: it keeps it, it resets the block, or it
is the `CMD` write of an illegal word, which faults. -/
inductive RecordServed (s : State) : HostEvent → State → Prop where
  | kept {e : HostEvent} {t : State} : t.fr = s.fr → RecordServed s e t
  | pinReset : RecordServed s .rst s.applyReset
  | softReset {w : Word} : w.getLsbD 0 = true →
      RecordServed s (Claims.registerWrite .ctrl w) (s.applyReset.respond .ack)
  | illegal (w : Word) : s.fr.faulted = false →
      RecordServed s (commandWrite w) ((s.takeFault w (Raise.plain .illegalCmd w 0#32)).respond .ack)

theorem portRead_fr (s : State) (addr : Word) (size : Nat) : (portRead s addr size).fr = s.fr := by
  rcases portRead_cases s addr size with ⟨r, hr⟩ | hr <;> rw [hr] <;> rfl

theorem writeLength_fr {n : Nat} {set : Nat → State} (hset : (set n).fr = s.fr) :
    (writeLength s n set).fr = s.fr := by
  unfold writeLength
  split
  · exact hset
  · rfl

theorem issue_recordServed (h : issue s w = .done t) : RecordServed s (commandWrite w) t := by
  cases hf : s.fr.faulted with
  | true =>
    rw [issue_of_faulted hf] at h
    cases h
    exact .kept rfl
  | false =>
    cases hd : decode w with
    | error c =>
      rw [issue_of_decode_error hf hd] at h
      cases h
      exact .illegal w hf
    | ok i =>
      rw [issue_of_decode hf hd] at h
      cases h

/-- Of the scalar registers, only `CMD` and `CTRL` can change the record. -/
theorem writeScalar_recordServed {r : ScalarReg} (h : writeScalar s w r = .done t) :
    RecordServed s (Claims.registerWrite r w) t := by
  cases r with
  | cmd => exact issue_recordServed h
  | ctrl =>
    cases h
    cases hw : w.getLsbD 0 with
    | true => rw [writeCtrl_of_set hw]; exact .softReset hw
    | false => rw [writeCtrl_of_clear hw]; exact .kept rfl
  | vl i => cases h; exact .kept (writeLength_fr rfl)
  | symlen => cases h; exact .kept (writeLength_fr rfl)
  | _ => cases h; exact .kept rfl

theorem serve_recordServed (h : serve s e = .done t) : RecordServed s e t := by
  cases e with
  | read addr size => cases h; exact .kept (portRead_fr s addr size)
  | rst => cases h; exact .pinReset
  | write addr size w =>
    simp only [serve, portWrite] at h
    cases ha : access s addr size with
    | error c => simp only [ha] at h; cases h; exact .kept rfl
    | ok loc =>
      simp only [ha] at h
      obtain ⟨rfl, -, hloc, -⟩ := access_ok ha
      cases loc with
      | reg r =>
        rw [eq_offset_of_locate hloc, ← registerAddress_eq_offset]
        exact writeScalar_recordServed h
      | vwindow i k | symWindow k | audWindow k => cases h; exact .kept rfl

/-- Settles O53: under `FAULTED` no command runs and no illegal word faults, so what is left is a reset. -/
theorem onlyResetLeavesFaultState : Obligations.OnlyResetLeavesFaultState := by
  intro s t hf hstep hchanged
  rcases step_next hstep with ⟨-, rfl⟩ | ⟨e, rest, hinbox, hserve⟩ | ⟨e, rest, i, u, -, hserve, -⟩
  · exact absurd rfl hchanged
  · refine ⟨e, rest, hinbox, ?_⟩
    cases serve_recordServed hserve with
    | kept hkept => exact absurd hkept hchanged
    | pinReset => exact ⟨trivial, rfl, rfl, rfl, rfl, rfl, rfl, rfl⟩
    | softReset hw => exact ⟨⟨rfl, rfl, hw⟩, rfl, rfl, rfl, rfl, rfl, rfl, rfl⟩
    | illegal w hfree => exact absurd hf (Bool.eq_false_iff.mp hfree)
  · obtain ⟨-, -, -, -, hfree, -⟩ := serve_run hserve
    exact absurd hf (Bool.eq_false_iff.mp hfree)

/-- A command that the host's `CMD` write runs is the one its word encodes (30_encoding.md R111). -/
theorem eq_commandWrite_encode_of_run {i : Instr} (h : serve s e = .run i) : e = commandWrite (encode i) := by
  obtain ⟨w, rfl⟩ := commandWrite_of_run h
  rw [serve_commandWrite] at h
  obtain ⟨-, hd⟩ := issue_run h
  rw [(decode_eq_ok_iff_encode.mp hd).1]

/-- A step that sets `FAULTED` is fault entry for the word of the `CMD` write it served, by the dispatcher or by the
command. -/
theorem step_raises_fault (hfree : s.fr.faulted = false) (hstep : step s = .next t) (hf : t.fr.faulted = true) :
    ∃ w rest r, s.inbox = commandWrite w :: rest ∧ t = ((s.withInbox rest).takeFault w r).respond .ack := by
  have hchanged : t.fr ≠ s.fr := fun hfr => by rw [hfr, hfree] at hf; cases hf
  rcases step_next hstep with ⟨-, rfl⟩ | ⟨e, rest, hinbox, hserve⟩ | ⟨e, rest, i, u, hinbox, hserve, hexec, rfl⟩
  · exact absurd rfl hchanged
  · cases serve_recordServed hserve with
    | kept hkept => exact absurd hkept hchanged
    | pinReset => cases hf
    | softReset hw => cases hf
    | illegal w => exact ⟨w, rest, _, hinbox, rfl⟩
  · rcases exec_next hexec with ⟨r, rfl⟩ | ⟨v, rfl, -, hfr, -⟩
    · exact ⟨encode i, rest, r, eq_commandWrite_encode_of_run hserve ▸ hinbox, rfl⟩
    · exact absurd hfr hchanged

/-- Settles O54: fault entry sets `STATUS` and `FCMD` and writes nothing but the record. -/
theorem faultOutRaisedByCommandOnly : Obligations.FaultOutRaisedByCommandOnly := by
  intro s t hfree hstep hf
  obtain ⟨w, rest, r, hinbox, rfl⟩ := step_raises_fault hfree hstep hf
  exact ⟨rfl, w, rest, hinbox, rfl, rfl⟩

end Sys2Proof.Machine
end
